-- ==== Sys2Proof/Word.lean ====
section
/-! DEFINITION. The words of FRAMER: bytes, addresses and lengths, the command descriptor and the
result record (00_scope.md R8, R12; 30_encoding.md R63, R66). -/

namespace Sys2Proof

/-- A byte, bit 0 least significant (R12). -/
abbrev Byte := BitVec 8

/-- A `u_AW` address or a `u_LW` length, capacity, index or count: `AW = LW = 32` (R8, R12). -/
abbrev Word := BitVec 32

/-- A command as the caller presents it, whole (R63). -/
abbrev Descriptor := BitVec 192

/-- A result record as FRAMER returns it (R66). -/
abbrev ResultWord := BitVec 256

/-- The number of byte addresses, `2^AW` (R32). -/
abbrev addressLimit : Nat := 4294967296

end Sys2Proof
end

