-- ==== Sys2Proof/Config.lean ====
section
/-! DEFINITION. The OPEN parameters of FRAMER (00_scope.md R8): the four markers and `MEM_OK`.
`NSESS`, the third one, is the length of `State.sess`. A model takes every OPEN parameter as an
argument (R8), so they are plain data that State carries and no step writes (log 3): a statement
about every state is a statement about every parameter set. -/

namespace Sys2Proof

/-- The marker bytes shared by the encoder and the decoder (R2, R8, R59). -/
structure Markers where
  END : Byte
  ESC : Byte
  ESC_END : Byte
  ESC_ESC : Byte
  deriving DecidableEq, Repr

/-- The default marker profile (R11, R59). -/
def Markers.defaultProfile : Markers :=
  { END := 0xC0, ESC := 0xDB, ESC_END := 0xDC, ESC_ESC := 0xDD }

/-- The access kinds of `MEM_OK(addr, kind)` (R8). -/
inductive AccessKind
  | R
  | W
  deriving DecidableEq, Repr

/-- A run of `size` addresses from `base` that the caller lets FRAMER read or write.
A list of these spells any predicate on the `2^32` addresses (DEDUCED, log 4). -/
structure Region where
  base : Nat
  size : Nat
  readable : Bool
  writable : Bool
  deriving DecidableEq, Repr

/-- The OPEN parameters but `NSESS` (R8). `regions` spells `MEM_OK`. -/
structure Params where
  markers : Markers
  regions : List Region
  deriving DecidableEq, Repr

/-- The parameters of `State.reset`: the default profile (R11), and every address readable and
writable (DESIGN CHOICE: the spec leaves `MEM_OK` open, log 3). -/
def Params.ofReset : Params :=
  { markers := Markers.defaultProfile
    regions := [{ base := 0, size := addressLimit, readable := true, writable := true }] }

end Sys2Proof
end

