-- ==== Sys2Proof/Syntax.lean ====
section
/-! DEFINITION. The commands of FRAMER, one constructor per row of the opcode table, and their
operands (30_encoding.md R62 to R65). -/

namespace Sys2Proof

/-- A session handle: `NULL` (`hp = 0`) or the index `hidx` (R62). The index may be out of range:
such a handle is invalid, not ill formed. -/
inductive Handle
  | null
  | session (hidx : Word)
  deriving DecidableEq, Repr

/-- A buffer reference: `absent`, or `at(a)`, where `at(0)` is a valid reference (R34). -/
inductive Ref
  | absent
  | present (a : Word)
  deriving DecidableEq, Repr

/-- Operand C of ENC: absent (`cp = 0`) or a capacity (R63). -/
inductive Capacity
  | absent
  | value (c : Word)
  deriving DecidableEq, Repr

/-- The commands (R64) with the operands each one reads (R65). -/
inductive Instr
  | bind (h : Handle) (a : Ref) (n : Word)
  | decb (h : Handle) (byte : Byte)
  | decn (h : Handle) (a : Ref) (n : Word)
  | enc (a : Ref) (n : Word) (b : Ref) (c : Capacity)
  | stat (h : Handle)
  deriving DecidableEq, Repr

/-- The pseudo-instruction `FEED <h>, <b0>, ..., <bk>`: the `k + 1` commands `DECB <h>, <bi>`, in
order (R71). -/
def feed (h : Handle) (bytes : List Byte) : List Instr :=
  bytes.map (Instr.decb h)

end Sys2Proof
end

