-- ==== Sys2Proof/WellFormed.lean ====
section
/-! DEFINITION. What the spec requires of a parameter set and of a command before the machine runs.

Every term of `Instr` is well formed: the type of each operand holds exactly the values of its
descriptor field (30_encoding.md R63, R72), and an operand the spec calls invalid (a NULL handle, an
index past `NSESS`, an absent reference) is an operand the command answers with ERROR (R62, R120).
The checks are therefore on the parameters (00_scope.md R8, R9, R10); the check on a descriptor's
unused bits, `Descriptor.canonical`, stands beside the encoder. -/

namespace Sys2Proof

/-- The four marker values are pairwise distinct (R9). -/
def Markers.distinct (m : Markers) : Bool :=
  m.END != m.ESC && m.END != m.ESC_END && m.END != m.ESC_ESC &&
    m.ESC != m.ESC_END && m.ESC != m.ESC_ESC && m.ESC_END != m.ESC_ESC

/-- What the source's worked examples presuppose of the markers (R10). A set that breaks this is
still valid. -/
def Markers.admitExamples (m : Markers) : Bool :=
  ([0x01, 0x02, 0x0A, 0x0B] : List Byte).all (fun b => b != m.END && b != m.ESC) &&
    (0xFF : Byte) != m.ESC_END && (0xFF : Byte) != m.ESC_ESC

/-- A parameter set the model accepts: distinct markers (R9) and `NSESS >= 1` (R8). -/
def Params.accepted (p : Params) (nsess : Nat) : Bool :=
  p.markers.distinct && decide (1 ≤ nsess)

end Sys2Proof
end

