-- ==== Sys2Proof/Decode.lean ====
section
/-! DEFINITION. Descriptors: the decoder, total on every descriptor, and the encoder
(30_encoding.md R62 to R65, R67), with the assembler syntax of R70. -/

namespace Sys2Proof

/-- `v[hi:lo]` with `hi = lo + width - 1` (R12). -/
def Descriptor.field (d : Descriptor) (lo width : Nat) : BitVec width :=
  d.extractLsb' lo width

/-- The descriptor's fields, at the bits R63 gives them. -/
def Descriptor.op (d : Descriptor) : BitVec 8 := d.field 0 8
def Descriptor.hp (d : Descriptor) : BitVec 1 := d.field 8 1
def Descriptor.ap (d : Descriptor) : BitVec 1 := d.field 9 1
def Descriptor.bp (d : Descriptor) : BitVec 1 := d.field 10 1
def Descriptor.cp (d : Descriptor) : BitVec 1 := d.field 11 1
def Descriptor.byte (d : Descriptor) : Byte := d.field 16 8
def Descriptor.hidx (d : Descriptor) : Word := d.field 32 32
def Descriptor.a (d : Descriptor) : Word := d.field 64 32
def Descriptor.n (d : Descriptor) : Word := d.field 96 32
def Descriptor.b (d : Descriptor) : Word := d.field 128 32
def Descriptor.c (d : Descriptor) : Word := d.field 160 32

/-- The handle: `hidx` is meaningful only when `hp = 1` (R62). -/
def Descriptor.handle (d : Descriptor) : Handle :=
  if d.hp = 1 then .session d.hidx else .null

/-- Reference A: `at(a)` when `ap = 1`, `absent` when `ap = 0` (R63). -/
def Descriptor.refA (d : Descriptor) : Ref :=
  if d.ap = 1 then .present d.a else .absent

/-- Reference B, by `bp` and `b` (R63). -/
def Descriptor.refB (d : Descriptor) : Ref :=
  if d.bp = 1 then .present d.b else .absent

/-- Operand C: present with value `c` when `cp = 1` (R63). -/
def Descriptor.capC (d : Descriptor) : Capacity :=
  if d.cp = 1 then .value d.c else .absent

/-- Why a descriptor names no command of the table. -/
inductive DecodeError
  /-- `op` is `0x00` or `0x06` to `0xFF` (R67). -/
  | undefinedOpcode (op : BitVec 8)
  deriving DecidableEq, Repr

/-- The command a descriptor presents (R64). Only `op` selects it; the fields that the opcode's row
of R65 does not name, and the reserved bits, are ignored (R63). -/
def decode (d : Descriptor) : Except DecodeError Instr :=
  if d.op = 0x01 then .ok (.bind d.handle d.refA d.n)
  else if d.op = 0x02 then .ok (.decb d.handle d.byte)
  else if d.op = 0x03 then .ok (.decn d.handle d.refA d.n)
  else if d.op = 0x04 then .ok (.enc d.refA d.n d.refB d.capC)
  else if d.op = 0x05 then .ok (.stat d.handle)
  else .error (.undefinedOpcode d.op)

/-- A descriptor from its six 32-bit words, where `wi` is bits `[32i+31 : 32i]`
(95_test_vectors.md). -/
def Descriptor.ofWords (w0 w1 w2 w3 w4 w5 : Word) : Descriptor :=
  w5 ++ w4 ++ w3 ++ w2 ++ w1 ++ w0

/-- The descriptor that the opcode table's numbering gives: bit 0 of `w` is bit 0 of the descriptor,
and every bit from `nbits` up is 0 (log 15). -/
def tableDescriptor (nbits w : Nat) : Descriptor :=
  BitVec.ofNat 192 (w % 2 ^ nbits)

/-- The instruction the decoder reads from an opcode-table word of `nbits` bits. -/
def decodeTableWord (nbits w : Nat) : Option Instr :=
  match decode (tableDescriptor nbits w) with
  | .ok i => some i
  | .error _ => none

/-- The present bit and the index of a handle (R62); an unused field is written 0 (DESIGN CHOICE,
log 13). -/
def Handle.hp : Handle → BitVec 1
  | .null => 0
  | .session _ => 1

def Handle.hidx : Handle → Word
  | .null => 0
  | .session k => k

/-- The present bit and the address of a reference (R34, R63). -/
def Ref.flag : Ref → BitVec 1
  | .absent => 0
  | .present _ => 1

def Ref.addr : Ref → Word
  | .absent => 0
  | .present a => a

/-- The present bit and the value of operand C (R63). -/
def Capacity.flag : Capacity → BitVec 1
  | .absent => 0
  | .value _ => 1

def Capacity.amount : Capacity → Word
  | .absent => 0
  | .value c => c

/-- A descriptor from its fields, from the top bit down, the reserved bits written 0 (R63). -/
def Descriptor.make (op : BitVec 8) (hp ap bp cp : BitVec 1) (byte : Byte)
    (hidx a n b c : Word) : Descriptor :=
  c ++ b ++ n ++ a ++ hidx ++ (0 : BitVec 8) ++ byte ++ (0 : BitVec 4) ++ cp ++ bp ++ ap ++ hp ++ op

/-- The descriptor of a command (R63 to R65). -/
def encode : Instr → Descriptor
  | .bind h a n => Descriptor.make 0x01 h.hp a.flag 0 0 0 h.hidx a.addr n 0 0
  | .decb h byte => Descriptor.make 0x02 h.hp 0 0 0 byte h.hidx 0 0 0 0
  | .decn h a n => Descriptor.make 0x03 h.hp a.flag 0 0 0 h.hidx a.addr n 0 0
  | .enc a n b c => Descriptor.make 0x04 0 a.flag b.flag c.flag 0 0 a.addr n b.addr c.amount
  | .stat h => Descriptor.make 0x05 h.hp 0 0 0 0 h.hidx 0 0 0 0

/-- No absent operand carries a value: the index of a NULL handle, the address of an absent
reference and the value of an absent C are written 0. -/
def Descriptor.absentFieldsZero (d : Descriptor) : Bool :=
  (d.hp == 1 || d.hidx == 0) && (d.ap == 1 || d.a == 0) &&
    (d.bp == 1 || d.b == 0) && (d.cp == 1 || d.c == 0)

/-- The fields that the opcode's row of R65 does not name are 0. -/
def Descriptor.unnamedFieldsZero (d : Descriptor) : Bool :=
  if d.op = 0x01 ∨ d.op = 0x03 then d.bp == 0 && d.cp == 0 && d.byte == 0 && d.b == 0 && d.c == 0
  else if d.op = 0x02 then
    d.ap == 0 && d.bp == 0 && d.cp == 0 && d.a == 0 && d.n == 0 && d.b == 0 && d.c == 0
  else if d.op = 0x04 then d.hp == 0 && d.byte == 0 && d.hidx == 0
  else d.ap == 0 && d.bp == 0 && d.cp == 0 && d.byte == 0 && d.a == 0 && d.n == 0 && d.b == 0 &&
    d.c == 0

/-- A descriptor written as R63 asks (the reserved bits "written 0"), with every field its command
does not read written 0 as well: the one spelling of a command that `encode` gives. -/
def Descriptor.canonical (d : Descriptor) : Bool :=
  d.field 12 4 == 0 && d.field 24 8 == 0 && d.absentFieldsZero && d.unnamedFieldsZero

/-- The assembler spelling of the operands and commands (R70), numbers in decimal. -/
def Handle.asm : Handle → String
  | .null => "-"
  | .session k => "s" ++ toString k.toNat

def Ref.asm : Ref → String
  | .absent => "-"
  | .present a => "@" ++ toString a.toNat

def Capacity.asm : Capacity → String
  | .absent => "-"
  | .value c => toString c.toNat

def Instr.asm : Instr → String
  | .bind h a n => "BIND " ++ h.asm ++ ", " ++ a.asm ++ ", " ++ toString n.toNat
  | .decb h byte => "DECB " ++ h.asm ++ ", " ++ toString byte.toNat
  | .decn h a n => "DECN " ++ h.asm ++ ", " ++ a.asm ++ ", " ++ toString n.toNat
  | .enc a n b c => "ENC " ++ a.asm ++ ", " ++ toString n.toNat ++ ", " ++ b.asm ++ ", " ++ c.asm
  | .stat h => "STAT " ++ h.asm

/-- The words of a line, up to its comment: blanks and commas separate them alike (log 20). -/
def asmWords : List Char → List (List Char)
  | [] => [[]]
  | c :: cs =>
    if c = ';' then [[]]
    else if c = ' ' ∨ c = ',' then [] :: asmWords cs
    else
      match asmWords cs with
      | [] => [[c]]
      | w :: ws => (c :: w) :: ws

/-- The value of a digit. -/
def asmDigit (c : Char) : Option Nat :=
  if '0' ≤ c ∧ c ≤ '9' then some (c.toNat - 48)
  else if 'a' ≤ c ∧ c ≤ 'f' then some (c.toNat - 87)
  else if 'A' ≤ c ∧ c ≤ 'F' then some (c.toNat - 55)
  else none

/-- The value of a run of digits in a base, beside the value of the digits before it. -/
def asmDigits (base : Nat) : Nat → List Char → Option Nat
  | v, [] => some v
  | v, c :: cs =>
    match asmDigit c with
    | none => none
    | some d => if d < base then asmDigits base (v * base + d) cs else none

/-- A number of `width` bits: decimal, or hex with `0x` (R70). -/
def asmNumber (width : Nat) (cs : List Char) : Option (BitVec width) :=
  let value :=
    match cs with
    | [] => none
    | '0' :: 'x' :: [] => none
    | '0' :: 'x' :: ds => asmDigits 16 0 ds
    | ds => asmDigits 10 0 ds
  match value with
  | none => none
  | some v => if v < 2 ^ width then some (BitVec.ofNat width v) else none

/-- `s<k>`, or `-` for the NULL handle (R70). -/
def asmHandle : List Char → Option Handle
  | ['-'] => some .null
  | 's' :: ds => (asmNumber 32 ds).map Handle.session
  | _ => none

/-- `@<addr>`, or `-` for an absent reference (R70). -/
def asmRef : List Char → Option Ref
  | ['-'] => some .absent
  | '@' :: ds => (asmNumber 32 ds).map Ref.present
  | _ => none

/-- A number, or `-` for an absent C (R70). -/
def asmCapacity : List Char → Option Capacity
  | ['-'] => some .absent
  | ds => (asmNumber 32 ds).map Capacity.value

/-- A byte value, or the name of a marker, which stands for the parameter's value (R70). -/
def asmByte (m : Markers) (cs : List Char) : Option Byte :=
  if cs = ['E', 'N', 'D'] then some m.END
  else if cs = ['E', 'S', 'C'] then some m.ESC
  else if cs = ['E', 'S', 'C', '_', 'E', 'N', 'D'] then some m.ESC_END
  else if cs = ['E', 'S', 'C', '_', 'E', 'S', 'C'] then some m.ESC_ESC
  else asmNumber 8 cs

/-- The bytes of a FEED. -/
def asmBytes (m : Markers) : List (List Char) → Option (List Byte)
  | [] => some []
  | w :: ws =>
    match asmByte m w, asmBytes m ws with
    | some b, some bs => some (b :: bs)
    | _, _ => none

/-- The commands that a line of the assembler syntax stands for (R70): none for a blank line, one for
a command, one DECB per byte for a FEED (R71). -/
def assemble (m : Markers) (line : List Char) : Option (List Instr) :=
  match (asmWords line).filter (fun w => w != []) with
  | [] => some []
  | [['B', 'I', 'N', 'D'], h, a, n] =>
    match asmHandle h, asmRef a, asmNumber 32 n with
    | some h, some a, some n => some [.bind h a n]
    | _, _, _ => none
  | [['D', 'E', 'C', 'B'], h, b] =>
    match asmHandle h, asmByte m b with
    | some h, some b => some [.decb h b]
    | _, _ => none
  | [['D', 'E', 'C', 'N'], h, a, n] =>
    match asmHandle h, asmRef a, asmNumber 32 n with
    | some h, some a, some n => some [.decn h a n]
    | _, _, _ => none
  | [['S', 'T', 'A', 'T'], h] =>
    match asmHandle h with
    | some h => some [.stat h]
    | none => none
  | [['E', 'N', 'C'], a, n, b, c] =>
    match asmRef a, asmNumber 32 n, asmRef b, asmCapacity c with
    | some a, some n, some b, some c => some [.enc a n b c]
    | _, _, _, _ => none
  | ['F', 'E', 'E', 'D'] :: h :: w :: ws =>
    match asmHandle h, asmBytes m (w :: ws) with
    | some h, some bs => some (feed h bs)
    | _, _ => none
  | _ => none

end Sys2Proof
end

