-- ==== Sys2Proof/Machine/State.lean ====
section
/-! DEFINITION. The state of FRAMER (10_state.md): the decoder sessions, the caller-owned byte
memory, the parameters, and the two sides of the command interface; the reasons a step can stop; and
the state right after reset. -/

namespace Sys2Proof.Machine

/-- The parse modes (R19). The code 3 never occurs and has no constructor (93 I24, log 12). -/
inductive Mode
  | IDLE
  | ACTIVE
  | ESCAPED
  deriving DecidableEq, Repr

/-- A decoder session: exactly the six fields of R18. -/
structure Session where
  /-- an output buffer is bound (R20) -/
  bound : Bool
  /-- current parse mode (R19) -/
  state : Mode
  /-- first byte of the bound output buffer (R21) -/
  out_base : Word
  /-- capacity of the bound output buffer, in bytes (R21) -/
  cap : Word
  /-- write index, the next free offset in the output buffer (R22) -/
  widx : Word
  /-- payload length of the last completed frame (R24) -/
  frame_len : Word
  deriving DecidableEq, Repr

/-- A session right after reset (R31). -/
def Session.reset : Session :=
  { bound := false, state := .IDLE, out_base := 0, cap := 0, widx := 0, frame_len := 0 }

/-- The outcomes (R61). EMPTY is declared and never produced (R68); the codes 5 to 7 never occur and
have no constructor. -/
inductive OutcomeCode
  | CONTINUE
  | COMPLETE
  | EMPTY
  | ERROR
  | OVERFLOW
  deriving DecidableEq, Repr

/-- The result record of a command (R66). "A field the command does not set is 0." -/
structure Result where
  outcome : OutcomeCode
  st_bound : Bool := false
  st_state : Mode := .IDLE
  length : Word := 0
  consumed : Word := 0
  st_base : Word := 0
  st_cap : Word := 0
  st_widx : Word := 0
  st_flen : Word := 0
  deriving DecidableEq, Repr

/-- What the caller does next. An input lands between commands, never inside one (R45). -/
inductive Input
  /-- present a command (R63) -/
  | command (d : Descriptor)
  /-- the caller writes a byte of its own memory between commands (R28, R45, log 9) -/
  | store (a : Word) (v : Byte)
  /-- reset, or loss of power (R135, R136, log 10) -/
  | reset
  deriving DecidableEq, Repr

/-- The byte memory `M` (R28): the bytes that differ from what an unlisted address reads as, in
rising order of address. `Memory.wf` says the form, `Memory.fill` the unlisted byte. -/
abbrev Memory := List Host.Cell

/-- Everything the spec gives the machine. -/
structure State where
  /-- the OPEN parameters `END`, `ESC`, `ESC_END`, `ESC_ESC` and `MEM_OK` (R8); no step writes them -/
  params : Params
  /-- the decoder sessions, `NSESS` of them (R17) -/
  sess : List Session
  /-- the caller-owned byte memory (R28) -/
  mem : Memory
  /-- the model's own field: the caller's inputs still to come, in order (R45, log 1) -/
  pending : List Input
  /-- the model's own field: the result records returned so far, oldest first (R66, log 2); no
  command reads it (R27) -/
  results : List Result
  deriving DecidableEq, Repr

/-- Why the machine stops. -/
inductive Fault
  /-- Raised by DECB, DECN and ENC, and by no other command, when they reach a byte at `address`
  with `address >= 2^AW` or `MEM_OK` false (R40). It is the model-level `MemFault` of
  R128: no result is returned, the run is never final, and `left` is the faulted state, which keeps
  every effect made before the fault (R40, R98). Safe: the model stops where a real block might go
  on (log 6). -/
  | memFault (address : Nat) (left : State)
  deriving DecidableEq, Repr

/-- Why the machine gives no meaning. -/
inductive Refusal
  /-- A command whose arm of `exec` has no meaning yet. Raised by no arm of this model. Safe. -/
  | notModelled (mnemonic : String)
  /-- Raised by `step`, before any input is looked at, when the markers are not pairwise distinct
  ("A model refuses a parameter set that breaks this rule", R9) or there is no session
  (`NSESS >= 1`, R8). Safe (log 8). -/
  | badParameters
  deriving DecidableEq, Repr

/-- The state after reset of a block with parameters `p` and `nsess` sessions, beside the caller's
memory `m`, which reset does not touch (R31, R136). -/
def State.resetWith (p : Params) (nsess : Nat) (m : Memory) : State :=
  { params := p
    sess := List.replicate nsess Session.reset
    mem := m
    pending := []
    results := [] }

/-- The machine right after reset, under the default profile (R11) and the default `NSESS = 1` (R8);
nothing is listed in memory (log 5) and the caller has presented nothing (log 1). -/
def State.reset : State :=
  State.resetWith Params.ofReset 1 []

end Sys2Proof.Machine
end

