-- ==== Sys2Proof/Machine/Flags.lean ====
section
/-! DEFINITION. FRAMER has no condition codes and no sticky status (10_state.md R27): its only status
is the result record. This file holds the numeric codes (30_encoding.md R60, R61) and the record's
256-bit form (R66). -/

namespace Sys2Proof.Machine

/-- The state codes (R60). -/
def Mode.code : Mode → BitVec 2
  | .IDLE => 0
  | .ACTIVE => 1
  | .ESCAPED => 2

/-- The outcome codes (R61). -/
def OutcomeCode.code : OutcomeCode → BitVec 3
  | .CONTINUE => 0
  | .COMPLETE => 1
  | .EMPTY => 2
  | .ERROR => 3
  | .OVERFLOW => 4

/-- The result record as FRAMER returns it, from the top bit down, the reserved bits 0 (R66). -/
def Result.encode (r : Result) : ResultWord :=
  (0 : BitVec 32) ++ r.st_flen ++ r.st_widx ++ r.st_cap ++ r.st_base ++ r.consumed ++ r.length ++
    (0 : BitVec 26) ++ r.st_state.code ++ BitVec.ofBool r.st_bound ++ r.outcome.code

/-- ERROR with every other field 0. -/
def Result.error : Result := { outcome := .ERROR }

/-- CONTINUE with every other field 0. -/
def Result.ok : Result := { outcome := .CONTINUE }

/-- The caller's copy of operand C after an ENC: it becomes `length` on COMPLETE and is kept
otherwise (R66, log 14). -/
def callersCapacity (old : Word) (r : Result) : Word :=
  if r.outcome = .COMPLETE then r.length else old

end Sys2Proof.Machine
end

