-- ==== Sys2Proof/Machine/Ops.lean ====
section
/-! DEFINITION. The named operations over the byte memory and the sessions that every meaning is
written with (10_state.md R17 to R25; 20_memory.md R32 to R44). FRAMER has no trap to take (R118):
the only other end of a command is the model-level `MemFault`. -/

namespace Sys2Proof.Machine

/-! ### The byte memory -/

/-- What an address that the memory does not list reads as (DESIGN CHOICE, log 5). -/
def Memory.fill : Byte := 0

/-- The canonical form: addresses strictly rising and inside the address space (R32), and no entry
equal to what an unlisted address reads as. -/
abbrev Memory.wf (m : Memory) : Prop :=
  m.Pairwise (fun c d => c.1 < d.1) ∧ ∀ c ∈ m, c.1 < addressLimit ∧ c.2 ≠ Memory.fill

/-- The byte at an address (R41). -/
def Memory.read : Memory → Nat → Byte
  | [], _ => Memory.fill
  | (k, w) :: m, a => if k = a then w else Memory.read m a

/-- The memory with one byte written, in canonical form again (R41). -/
def Memory.write : Memory → Nat → Byte → Memory
  | [], a, v => if v = Memory.fill then [] else [(a, v)]
  | (k, w) :: m, a, v =>
    if a < k then (if v = Memory.fill then (k, w) :: m else (a, v) :: (k, w) :: m)
    else if a = k then (if v = Memory.fill then m else (a, v) :: m)
    else (k, w) :: Memory.write m a v

/-- The `n` bytes from `a` upward. -/
def Memory.bytes (m : Memory) (a n : Nat) : List Byte :=
  (List.range n).map (fun j => m.read (a + j))

/-! ### Checked accesses -/

/-- `MEM_OK(addr, kind)` (R8, R40). -/
def memOk (p : Params) (a : Nat) (kind : AccessKind) : Bool :=
  p.regions.any (fun r => decide (r.base ≤ a) && decide (a < r.base + r.size) &&
    match kind with
    | .R => r.readable
    | .W => r.writable)

/-- The check every byte access makes: `addr < 2^AW` and `MEM_OK(addr, kind)` (R40). An address that
ran past the top does not wrap: it fails the check (R39). -/
def State.allows (s : State) (a : Nat) (kind : AccessKind) : Bool :=
  decide (a < addressLimit) && memOk s.params a kind

/-- The end of a piece of a command: a value, or `MemFault(addr)` with the state it leaves (R40). -/
inductive Attempt (α : Type)
  | done (v : α) (s : State)
  | memFault (address : Nat) (left : State)
  deriving DecidableEq, Repr

/-- `MemRead(addr, 1)` (R14, R40). -/
def memRead (a : Nat) (s : State) : Attempt Byte :=
  if s.allows a .R then .done (s.mem.read a) s else .memFault a s

/-- The state with one byte of memory written, unchecked. -/
def State.poke (s : State) (a : Nat) (v : Byte) : State :=
  { s with mem := s.mem.write a v }

/-- `MemWrite(addr, 1, v)` (R14, R40). -/
def memWrite (a : Nat) (v : Byte) (s : State) : Attempt Unit :=
  if s.allows a .W then .done () (s.poke a v) else .memFault a s

/-! ### Sessions and results -/

/-- `NSESS` (R8, R17). -/
def State.nsess (s : State) : Nat := s.sess.length

/-- `sess[h]`. A command reaches it only with `h < NSESS` (R62); the reset session stands past the
end (log 19). -/
def State.session (s : State) (h : Nat) : Session := s.sess.getD h Session.reset

/-- `sess[h] <- x`: every field of one session. -/
def State.setSession (s : State) (h : Nat) (x : Session) : State :=
  { s with sess := s.sess.set h x }

/-- `return (o, ...)`: the result record goes to the caller (R14, R66). -/
def State.respond (s : State) (r : Result) : State :=
  { s with results := s.results ++ [r] }

/-- A command that ends with `return`. -/
def returns (r : Result) (s : State) : Host.Outcome State Fault Refusal :=
  .next (s.respond r)

/-- The end of a command: its result record, or the model-level fault (R118, R128). -/
def finish : Attempt Result → Host.Outcome State Fault Refusal
  | .done r s => returns r s
  | .memFault a s => .fault (.memFault a s)

/-! ### The caller between commands -/

/-- The caller writes a byte of its own memory (R28, R45); `MEM_OK` limits FRAMER, not the caller
(log 9). -/
def callerStore (a : Word) (v : Byte) (s : State) : State :=
  s.poke a.toNat v

/-- Reset: every session holds the values of R31, and nothing else changes (R136). -/
def resetSessions (s : State) : State :=
  { s with sess := s.sess.map (fun _ => Session.reset) }

end Sys2Proof.Machine
end

