-- ==== Sys2Proof/Machine/Operands.lean ====
section
/-! DEFINITION. What the operands of a command name (20_memory.md R34, R35; 30_encoding.md R62,
R63). -/

namespace Sys2Proof.Machine

/-- The session a handle names: valid when `hp = 1` and `hidx < NSESS` (R62). -/
def validSession (h : Handle) (s : State) : Option Nat :=
  match h with
  | .null => none
  | .session k => if k.toNat < s.nsess then some k.toNat else none

/-- The session a DECB or DECN may work on: the handle is valid and `bound = 1` (R78). -/
def boundSession (h : Handle) (s : State) : Option Nat :=
  match validSession h s with
  | none => none
  | some k => if (s.session k).bound then some k else none

/-- The address a reference names, as an exact integer (R34, R35). -/
def refAddress : Ref → Option Nat
  | .absent => none
  | .present a => some a.toNat

/-- The value of operand C, as an exact integer (R63, R72). -/
def capacityValue : Capacity → Option Nat
  | .absent => none
  | .value c => some c.toNat

/-- Byte `j` of a session's output buffer has the address `out_base + j` (R21, R35). -/
def Session.byteAddress (x : Session) (j : Nat) : Nat :=
  x.out_base.toNat + j

end Sys2Proof.Machine
end

