-- ==== Sys2Proof/Machine/Wire.lean ====
section
/-! DEFINITION. The wire format, shared by the encoder and the decoder (30_encoding.md R52 to R58;
41_encoder.md R110, R112). -/

namespace Sys2Proof.Machine

/-- The wire bytes of one payload byte (R53, R110). -/
def escape (m : Markers) (b : Byte) : List Byte :=
  if b = m.END then [m.ESC, m.ESC_END]
  else if b = m.ESC then [m.ESC, m.ESC_ESC]
  else [b]

/-- The payload byte that the byte after an ESC stands for; none is an invalid escape (R55, R87). -/
def unescape (m : Markers) (b : Byte) : Option Byte :=
  if b = m.ESC_END then some m.END
  else if b = m.ESC_ESC then some m.ESC
  else none

/-- The escaped payload, the tokens of R53 in payload order. -/
def frameBody (m : Markers) (P : List Byte) : List Byte :=
  P.flatMap (escape m)

/-- The canonical frame of a payload (R52, R58). -/
def frame (m : Markers) (P : List Byte) : List Byte :=
  m.END :: frameBody m P ++ [m.END]

/-- `L(P) = n + count(P, {END, ESC}) + 2`, over the integers (R112). -/
def requiredLength (m : Markers) (P : List Byte) : Nat :=
  P.length + P.countP (fun b => b == m.END || b == m.ESC) + 2

end Sys2Proof.Machine
end

