-- ==== Sys2Proof/Machine/Decoder.lean ====
section
/-! DEFINITION. The decoder commands BIND, DECB, DECN and STAT, and the per-byte transition function
`Step` (40_decoder.md). -/

namespace Sys2Proof.Machine

/-! ### The per-byte transition function -/

/-- What one byte does to a session: the session after it, the byte it stores, if any, and what it
returns. -/
structure Transition where
  after : Session
  store : Option (Nat × Byte)
  outcome : OutcomeCode
  length : Word
  deriving DecidableEq, Repr

/-- `Abort(h)` (R91). -/
def Session.abort (x : Session) : Session :=
  { x with state := .IDLE, widx := 0 }

/-- A byte that changes nothing but the session, and returns CONTINUE. -/
def Transition.quiet (x : Session) : Transition :=
  { after := x, store := none, outcome := .CONTINUE, length := 0 }

/-- A byte that aborts the frame in progress (R85, R89, R90). -/
def Transition.aborting (x : Session) (o : OutcomeCode) : Transition :=
  { after := x.abort, store := none, outcome := o, length := 0 }

/-- Store payload byte `v` at the write index and then advance (R86, R88), or overflow when the
buffer is full (R85, R89). The session is ACTIVE after a store. `widx <= cap` on every reachable
session (R23), so `widx < cap` fails exactly when `widx = cap` (DEDUCED for the others, log 7). -/
def storePayload (x : Session) (v : Byte) : Transition :=
  if x.widx.toNat < x.cap.toNat then
    { after := { x with widx := x.widx + 1, state := .ACTIVE }
      store := some (x.byteAddress x.widx.toNat, v)
      outcome := .CONTINUE
      length := 0 }
  else Transition.aborting x .OVERFLOW

/-- IDLE (R80, R81). -/
def stepIdle (m : Markers) (x : Session) (b : Byte) : Transition :=
  if b = m.END then Transition.quiet { x with state := .ACTIVE, widx := 0 }
  else Transition.quiet x

/-- ACTIVE on END: the empty frame is silent (R82), any other is complete, and the same END opens the
next frame (R83). -/
def stepFrameEnd (x : Session) : Transition :=
  if x.widx = 0 then Transition.quiet x
  else
    { after := { x with frame_len := x.widx, widx := 0 }
      store := none
      outcome := .COMPLETE
      length := x.widx }

/-- ACTIVE (R82 to R86). -/
def stepActive (m : Markers) (x : Session) (b : Byte) : Transition :=
  if b = m.END then stepFrameEnd x
  else if b = m.ESC then Transition.quiet { x with state := .ESCAPED }
  else storePayload x b

/-- ESCAPED (R87 to R90). -/
def stepEscaped (m : Markers) (x : Session) (b : Byte) : Transition :=
  match unescape m b with
  | some v => storePayload x v
  | none => Transition.aborting x .ERROR

/-- `Step`, by the state and the class of the byte (R79, R92). -/
def transition (m : Markers) (x : Session) (b : Byte) : Transition :=
  match x.state with
  | .IDLE => stepIdle m x b
  | .ACTIVE => stepActive m x b
  | .ESCAPED => stepEscaped m x b

/-- `Step(h, b)` on the machine: the checked store comes first, then the session fields (R79 to R92).
The store of a byte that faults leaves the session as it was (R40). -/
def byteStep (h : Nat) (b : Byte) (s : State) : Attempt (OutcomeCode × Word) :=
  let t := transition s.params.markers (s.session h) b
  match t.store with
  | none => .done (t.outcome, t.length) (s.setSession h t.after)
  | some (a, v) =>
    match memWrite a v s with
    | .memFault x s' => .memFault x s'
    | .done _ s' => .done (t.outcome, t.length) (s'.setSession h t.after)

/-! ### BIND -/

/-- The session BIND leaves (R75). -/
def bindSession (a : Ref) (n : Word) : Session :=
  match a with
  | .present base =>
    { bound := true, state := .IDLE, out_base := base, cap := n, widx := 0, frame_len := 0 }
  | .absent =>
    { bound := false, state := .IDLE, out_base := 0, cap := 0, widx := 0, frame_len := 0 }

/-- BIND (R74 to R76). -/
def execBind (h : Handle) (a : Ref) (n : Word) (s : State) : Host.Outcome State Fault Refusal :=
  match validSession h s with
  | none => returns Result.error s
  | some k => returns Result.ok (s.setSession k (bindSession a n))

/-! ### DECB -/

/-- The result record of one byte (R77). -/
def byteResult (ol : OutcomeCode × Word) : Result :=
  { outcome := ol.1, length := ol.2 }

/-- `DECB` on a bound session (R77). -/
def feedByte (k : Nat) (b : Byte) (s : State) : Attempt Result :=
  match byteStep k b s with
  | .memFault x s' => .memFault x s'
  | .done ol s' => .done (byteResult ol) s'

/-- DECB (R77, R78). -/
def execDecb (h : Handle) (b : Byte) (s : State) : Host.Outcome State Fault Refusal :=
  match boundSession h s with
  | none => returns Result.error s
  | some k => finish (feedByte k b s)

/-! ### DECN -/

/-- The loop of DECN with `left` input bytes to go and the cursor at `i` (R95): read a byte, give it
to `Step`, and stop at the first outcome that is not CONTINUE (R96). `consumed` counts the bytes
passed to `Step` (R97). -/
def consume (k a : Nat) : (left i : Nat) → State → Attempt Result
  | 0, i, s => .done { outcome := .CONTINUE, consumed := BitVec.ofNat 32 i } s
  | left + 1, i, s =>
    match memRead (a + i) s with
    | .memFault x s' => .memFault x s'
    | .done b s' =>
      match byteStep k b s' with
      | .memFault x s'' => .memFault x s''
      | .done (o, len) s'' =>
        if o = .CONTINUE then consume k a left (i + 1) s''
        else .done { outcome := o, length := len, consumed := BitVec.ofNat 32 (i + 1) } s''

/-- DECN (R94 to R98): the pre-checks of R78, then the loop. -/
def execDecn (h : Handle) (a : Ref) (n : Word) (s : State) : Host.Outcome State Fault Refusal :=
  match boundSession h s, refAddress a with
  | some k, some base => finish (consume k base n.toNat 0 s)
  | _, _ => returns Result.error s

/-! ### STAT -/

/-- The record STAT returns (R100). -/
def statResult (x : Session) : Result :=
  { outcome := .CONTINUE
    st_bound := x.bound
    st_state := x.state
    st_base := x.out_base
    st_cap := x.cap
    st_widx := x.widx
    st_flen := x.frame_len }

/-- STAT (R100). -/
def execStat (h : Handle) (s : State) : Host.Outcome State Fault Refusal :=
  match validSession h s with
  | none => returns Result.error s
  | some k => returns (statResult (s.session k)) s

/-! ### A descriptor whose opcode is undefined -/

/-- An undefined opcode: ERROR, no effect (R67), recognised before any operand is looked at (R123). -/
def execUndefined (s : State) : Host.Outcome State Fault Refusal :=
  returns Result.error s

end Sys2Proof.Machine
end

