-- ==== Sys2Proof/Machine/Encoder.lean ====
section
/-! DEFINITION. The encoder command ENC (41_encoder.md). The encoder keeps no state (10_state.md
R26): the output cursor `k` lives in the command only (R16). -/

namespace Sys2Proof.Machine

/-- How a piece of ENC ends: with the output cursor `k`, with the capacity exhausted (R114), or with
`MemFault`. -/
inductive Emission
  | going (k : Nat) (s : State)
  | full (s : State)
  | memFault (address : Nat) (left : State)
  deriving DecidableEq, Repr

/-- Go on with the next piece of ENC while the capacity lasts. -/
def Emission.andThen (e : Emission) (f : Nat → State → Emission) : Emission :=
  match e with
  | .going k s => f k s
  | .full s => .full s
  | .memFault a s => .memFault a s

/-- `Emit(v)`: the capacity is checked before each write (R108). -/
def emit (o cap : Nat) (v : Byte) (k : Nat) (s : State) : Emission :=
  if k = cap then .full s
  else
    match memWrite (o + k) v s with
    | .memFault a s' => .memFault a s'
    | .done _ s' => .going (k + 1) s'

/-- `Emit` of each byte of a list, in order. -/
def emitAll (o cap : Nat) : List Byte → Nat → State → Emission
  | [], k, s => .going k s
  | v :: vs, k, s => (emit o cap v k s).andThen (emitAll o cap vs)

/-- Step 2 of R109, with `left` payload bytes to go and the payload cursor at `i`: each payload byte
is read before its one or two output bytes are written (R44). -/
def emitPayload (p o cap : Nat) : (left i : Nat) → Nat → State → Emission
  | 0, _, k, s => .going k s
  | left + 1, i, k, s =>
    match memRead (p + i) s with
    | .memFault a s' => .memFault a s'
    | .done b s' =>
      (emitAll o cap (escape s'.params.markers b) k s').andThen (emitPayload p o cap left (i + 1))

/-- Steps 1 to 3 of R109. -/
def emitFrame (p n o cap : Nat) (s : State) : Emission :=
  ((emit o cap s.params.markers.END 0 s).andThen (emitPayload p o cap n 0)).andThen
    (emit o cap s.params.markers.END)

/-- The end of ENC: COMPLETE with the number of bytes written (R111), OVERFLOW with `length = 0` and
the written bytes left in place (R114), or `MemFault`. -/
def Emission.result : Emission → Attempt Result
  | .going k s => .done { outcome := .COMPLETE, length := BitVec.ofNat 32 k } s
  | .full s => .done { outcome := .OVERFLOW } s
  | .memFault a s => .memFault a s

/-- ENC (R106 to R116): the reference checks of R107, then the frame. -/
def execEnc (a : Ref) (n : Word) (b : Ref) (c : Capacity) (s : State) :
    Host.Outcome State Fault Refusal :=
  match refAddress a, refAddress b, capacityValue c with
  | some p, some o, some cap => finish (emitFrame p n.toNat o cap s).result
  | _, _, _ => returns Result.error s

end Sys2Proof.Machine
end

