-- ==== Sys2Proof/Machine/Dispatch.lean ====
section
/-! DEFINITION. The meaning of every command: one arm per constructor of `Instr`. -/

namespace Sys2Proof.Machine

def exec (i : Instr) (s : State) : Host.Outcome State Fault Refusal :=
  match i with
  | .bind h a n => Sys2Proof.Machine.execBind h a n s
  | .decb h byte => Sys2Proof.Machine.execDecb h byte s
  | .decn h a n => Sys2Proof.Machine.execDecn h a n s
  | .enc a n b c => Sys2Proof.Machine.execEnc a n b c s
  | .stat h => Sys2Proof.Machine.execStat h s

end Sys2Proof.Machine
end

