-- ==== Sys2Proof/Machine/Stream.lean ====
section
/-! DEFINITION. The decoder as a stream function (40_decoder.md R101), and how a sequence of commands
is presented (30_encoding.md R71). -/

namespace Sys2Proof.Machine

/-- An outcome that is not CONTINUE, with its length and its index in the stream (R101). -/
structure Event where
  index : Nat
  outcome : OutcomeCode
  length : Word
  deriving DecidableEq, Repr

/-- `Run(S, w)`: `Step` on each byte of `w` in order, the first at index `i`. It yields the outcomes
that are not CONTINUE, and the final state, which holds the memory writes (R101). -/
def run (k : Nat) : List Byte → Nat → State → Attempt (List Event)
  | [], _, s => .done [] s
  | b :: w, i, s =>
    match byteStep k b s with
    | .memFault x s' => .memFault x s'
    | .done (o, len) s' =>
      match run k w (i + 1) s' with
      | .memFault x s'' => .memFault x s''
      | .done es s'' => .done (if o = .CONTINUE then es else ⟨i, o, len⟩ :: es) s''

/-- The outcomes that are not CONTINUE, with their lengths, of a list of result records. -/
def delivered (rs : List Result) : List (OutcomeCode × Word) :=
  (rs.filter (fun r => r.outcome != .CONTINUE)).map (fun r => (r.outcome, r.length))

/-- The caller presents a sequence of commands, whole descriptors, in order (R45, R63). -/
def presented (is : List Instr) : List Input :=
  is.map (fun i => Input.command (encode i))

end Sys2Proof.Machine
end

