-- ==== Sys2Proof/Machine/Step.lean ====
section
/-! DEFINITION. One step of the machine: the caller's next input, performed whole (20_memory.md R45). -/

namespace Sys2Proof.Machine

/-- One command, presented as a descriptor (30_encoding.md R63, R64, R67). -/
def performCommand (d : Descriptor) (s : State) : Host.Outcome State Fault Refusal :=
  match decode d with
  | .ok i => exec i s
  | .error _ => execUndefined s

/-- The caller's next input. Between commands FRAMER holds all state unchanged (R135), so with no
input to come the state stays (log 11). -/
def performInput (s : State) : Host.Outcome State Fault Refusal :=
  match s.pending with
  | [] => .next s
  | .command d :: rest => performCommand d { s with pending := rest }
  | .store a v :: rest => .next (callerStore a v { s with pending := rest })
  | .reset :: rest => .next (resetSessions { s with pending := rest })

/-- One step. A parameter set that breaks R9 is refused before anything runs (R9, log 8). -/
def step (s : State) : Host.Outcome State Fault Refusal :=
  if s.params.accepted s.nsess then performInput s else .refused .badParameters

/-- The opcode-table word as the very next command the caller presents: FRAMER fetches nothing from
memory (R49), so a program comes to run by being presented (log 1, log 15). -/
def State.withFetchWord (s : State) (nbits w : Nat) : State :=
  { s with pending := .command (tableDescriptor nbits w) :: s.pending }

end Sys2Proof.Machine
end

