-- ==== Sys2Proof/Safety.lean ====
section
/-! DEFINITION. What counts as a kept state and a safe access, in the terms the statements use. -/

namespace Sys2Proof.Machine

/-- A session as the rules keep it: the write index and the last frame length stay inside the
capacity (R23, R83), the index is 0 in IDLE (R80, R91), and an unbound session holds the reset values
(R20, R21, R75). -/
abbrev Session.kept (x : Session) : Prop :=
  x.widx.toNat ≤ x.cap.toNat ∧ x.frame_len.toNat ≤ x.cap.toNat ∧
    (x.state = .IDLE → x.widx = 0) ∧ (x.bound = false → x = Session.reset)

/-- The invariant of the machine: an accepted parameter set (R8, R9), a memory in canonical form, and
every session as the rules keep it. -/
abbrev State.Inv (s : State) : Prop :=
  s.params.accepted s.nsess = true ∧ s.mem.wf ∧ ∀ x ∈ s.sess, x.kept

/-- The `n` bytes from `a` are real storage FRAMER may read (R40, R141). -/
abbrev State.canRead (s : State) (a n : Nat) : Prop := ∀ j < n, s.allows (a + j) .R

/-- The `n` bytes from `a` are real storage FRAMER may write (R40, R141). -/
abbrev State.canWrite (s : State) (a n : Nat) : Prop := ∀ j < n, s.allows (a + j) .W

/-- The `n` bytes from `a` and the `m` bytes from `b` do not overlap (R147). -/
abbrev apart (a n b m : Nat) : Prop := ∀ i < n, ∀ j < m, a + i ≠ b + j

/-- Two memories read alike outside the `n` bytes from `a`. -/
abbrev Memory.sameOutside (m m' : Memory) (a n : Nat) : Prop :=
  ∀ x, (∀ j < n, x ≠ a + j) → m'.read x = m.read x

/-- Handle `h` names session `k`, and an output buffer is bound to it (R62, R78). -/
abbrev State.bindsSession (s : State) (h : Handle) (k : Nat) : Prop :=
  validSession h s = some k ∧ (s.session k).bound = true

/-- Session `k` may store every byte its capacity admits (R43, R141). -/
abbrev State.outputWritable (s : State) (k : Nat) : Prop :=
  s.canWrite (s.session k).out_base.toNat (s.session k).cap.toNat

/-- The session a command names, if it takes a handle and the handle is valid (R62, R65). -/
def namedSession (i : Instr) (s : State) : Option Nat :=
  match i with
  | .bind h _ _ => validSession h s
  | .decb h _ => validSession h s
  | .decn h _ _ => validSession h s
  | .enc _ _ _ _ => none
  | .stat h => validSession h s

/-- An outcome with a function applied to the state it leaves. -/
def mapOutcome (f : State → State) :
    Host.Outcome State Fault Refusal → Host.Outcome State Fault Refusal
  | .next s => .next (f s)
  | .fault (.memFault a l) => .fault (.memFault a (f l))
  | .refused r => .refused r

/-- A command completes on `s` with record `r` and leaves `t`: one more result record (R66, R118). -/
abbrev answers (i : Instr) (s : State) (r : Result) (t : State) : Prop :=
  exec i s = .next t ∧ t.results = s.results ++ [r]

end Sys2Proof.Machine
end

