-- ==== Sys2Proof/Certificates/Slice0/Obligations.lean ====
section
/-! DEFINITION. The statements about FRAMER, for the provers. Unless one says otherwise it is about
every state, hence about every marker set, every `NSESS`, every `MEM_OK` and every memory (log 3). -/

open Sys2Proof Sys2Proof.Machine

/-! ### Descriptors -/

/-- Descriptors that 95_test_vectors.md spells decode to the commands it gives for them: P1.1, VB4,
VD2, VD4 (reserved bits set), P1.2, P2.1, VE14, VE15, VE16, VT1, VT3, VC1, VC3. -/
def Obligations.SpelledDescriptorsDecode : Prop :=
  decode (Descriptor.ofWords 0x00000301 0 0x00002000 0x00000010 0 0) =
      .ok (.bind (.session 0) (.present 0x2000) 16) ∧
    decode (Descriptor.ofWords 0x00000101 0 0 0x00000010 0 0) =
      .ok (.bind (.session 0) .absent 16) ∧
    decode (Descriptor.ofWords 0x00C00002 0 0 0 0 0) = .ok (.decb .null 0xC0) ∧
    decode (Descriptor.ofWords 0x00C0F102 0 0 0 0 0) = .ok (.decb (.session 0) 0xC0) ∧
    decode (Descriptor.ofWords 0x00000303 0 0x00001000 9 0 0) =
      .ok (.decn (.session 0) (.present 0x1000) 9) ∧
    decode (Descriptor.ofWords 0x00000E04 0 0x00001000 3 0x00003000 6) =
      .ok (.enc (.present 0x1000) 3 (.present 0x3000) (.value 6)) ∧
    decode (Descriptor.ofWords 0x00000C04 0 0x00001000 1 0x00003000 4) =
      .ok (.enc .absent 1 (.present 0x3000) (.value 4)) ∧
    decode (Descriptor.ofWords 0x00000A04 0 0x00001000 1 0x00003000 4) =
      .ok (.enc (.present 0x1000) 1 .absent (.value 4)) ∧
    decode (Descriptor.ofWords 0x00000604 0 0x00001000 1 0x00003000 0) =
      .ok (.enc (.present 0x1000) 1 (.present 0x3000) .absent) ∧
    decode (Descriptor.ofWords 0x00000105 0 0 0 0 0) = .ok (.stat (.session 0)) ∧
    decode (Descriptor.ofWords 0x00000005 0 0 0 0 0) = .ok (.stat .null) ∧
    decode (Descriptor.ofWords 0 0 0 0 0 0) = .error (.undefinedOpcode 0x00) ∧
    decode (Descriptor.ofWords 0x000003FF 0 0 0 0 0) = .error (.undefinedOpcode 0xFF)

/-- Every command, with every operand, is the command its descriptor decodes to, and that descriptor
is canonical (R63 to R65). -/
def Obligations.DecodingInvertsEncoding : Prop :=
  ∀ i : Instr, decode (encode i) = .ok i ∧ (encode i).canonical = true

/-- A canonical descriptor that decodes to a command is the descriptor of that command (R63 to R65). -/
def Obligations.EncodingInvertsCanonicalDecoding : Prop :=
  ∀ (d : Descriptor) (i : Instr), d.canonical = true → decode d = .ok i → encode i = d

/-- Descriptors that agree on `op` and on the fields its row of R65 names decode alike: "FRAMER
ignores every field that the opcode's row of rule R65 does not name, and every reserved bit" (R63). -/
def Obligations.UnnamedFieldsAreIgnored : Prop :=
  ∀ d e : Descriptor, d.op = e.op →
    (d.op ∈ [0x01#8, 0x02#8, 0x03#8, 0x05#8] → d.hp = e.hp ∧ (d.hp = 1 → d.hidx = e.hidx)) →
    (d.op ∈ [0x01#8, 0x03#8, 0x04#8] →
      d.ap = e.ap ∧ (d.ap = 1 → d.a = e.a) ∧ d.n = e.n) →
    (d.op = 0x02 → d.byte = e.byte) →
    (d.op = 0x04 →
      d.bp = e.bp ∧ (d.bp = 1 → d.b = e.b) ∧ d.cp = e.cp ∧ (d.cp = 1 → d.c = e.c)) →
    decode d = decode e

/-- The fields of a result record stand at the bits R66 gives them, and the reserved bits are 0; the
outcome and state fields hold the codes of R61 and R60, number by number. -/
def Obligations.ResultRecordLayout : Prop :=
  ∀ r : Result,
    r.encode.extractLsb' 0 3 = r.outcome.code ∧
    r.encode.extractLsb' 3 1 = BitVec.ofBool r.st_bound ∧
    r.encode.extractLsb' 4 2 = r.st_state.code ∧
    r.encode.extractLsb' 6 26 = 0 ∧
    r.encode.extractLsb' 32 32 = r.length ∧
    r.encode.extractLsb' 64 32 = r.consumed ∧
    r.encode.extractLsb' 96 32 = r.st_base ∧
    r.encode.extractLsb' 128 32 = r.st_cap ∧
    r.encode.extractLsb' 160 32 = r.st_widx ∧
    r.encode.extractLsb' 192 32 = r.st_flen ∧
    r.encode.extractLsb' 224 32 = 0 ∧
    (r.outcome = .CONTINUE → r.encode.extractLsb' 0 3 = 0) ∧
    (r.outcome = .COMPLETE → r.encode.extractLsb' 0 3 = 1) ∧
    (r.outcome = .EMPTY → r.encode.extractLsb' 0 3 = 2) ∧
    (r.outcome = .ERROR → r.encode.extractLsb' 0 3 = 3) ∧
    (r.outcome = .OVERFLOW → r.encode.extractLsb' 0 3 = 4) ∧
    (r.st_state = .IDLE → r.encode.extractLsb' 4 2 = 0) ∧
    (r.st_state = .ACTIVE → r.encode.extractLsb' 4 2 = 1) ∧
    (r.st_state = .ESCAPED → r.encode.extractLsb' 4 2 = 2)

/-! ### A step of the machine -/

/-- When the next input is a command whose descriptor decodes to `i`, the step is `exec i` on the
state with that input taken; `withFetchWord` presents the opcode-table word as that next command. -/
def Obligations.StepRunsThePresentedCommand : Prop :=
  ∀ s : State, s.params.accepted s.nsess = true →
    (∀ d rest i, s.pending = .command d :: rest → decode d = .ok i →
      step s = exec i { s with pending := rest }) ∧
    (∀ nbits w i, decodeTableWord nbits w = some i → step (s.withFetchWord nbits w) = exec i s)

/-- "An opcode not in rule R64 (`0x00`, or `0x06` to `0xFF`) is undefined. It returns a result with
`outcome = ERROR` and every other field 0" and writes nothing (R67). -/
def Obligations.UndefinedOpcodeReturnsError : Prop :=
  ∀ (s : State) (d : Descriptor) (rest : List Input),
    s.params.accepted s.nsess = true → s.pending = .command d :: rest →
    d.op ∉ [0x01#8, 0x02#8, 0x03#8, 0x04#8, 0x05#8] →
    step s = .next { s with
      pending := rest
      results := s.results ++ [⟨.ERROR, false, .IDLE, 0, 0, 0, 0, 0, 0⟩] }

/-- "The four marker values must be pairwise distinct"; "A model refuses a parameter set that breaks
this rule" (R9): two equal markers, and the step is refused whatever the input is. -/
def Obligations.EqualMarkersAreRefused : Prop :=
  ∀ s : State,
    s.params.markers.END = s.params.markers.ESC ∨
      s.params.markers.END = s.params.markers.ESC_END ∨
      s.params.markers.END = s.params.markers.ESC_ESC ∨
      s.params.markers.ESC = s.params.markers.ESC_END ∨
      s.params.markers.ESC = s.params.markers.ESC_ESC ∨
      s.params.markers.ESC_END = s.params.markers.ESC_ESC →
    step s = .refused .badParameters

/-- With accepted parameters (R8, R9) no step is refused, and a step that faults does so on a byte that
fails the check of R40: it is outside the address space (R39), or `MEM_OK` refuses the access. -/
def Obligations.StepStopsOnlyOnMemFault : Prop :=
  ∀ s : State, s.params.accepted s.nsess = true →
    (∃ t, step s = .next t) ∨
    ∃ a l, step s = .fault (.memFault a l) ∧
      (¬ a < addressLimit ∨ memOk s.params a .R = false ∨ memOk s.params a .W = false)

/-- After a reset "every session `h` holds `bound = 0`, `state = IDLE`, `out_base = 0`, `cap = 0`,
`widx = 0` and `frame_len = 0`", and the byte memory is as it was (R31); the number of sessions and
the parameters stay. -/
def Obligations.ResetReachesTheResetValues : Prop :=
  ∀ (s : State) (rest : List Input), s.params.accepted s.nsess = true →
    s.pending = .reset :: rest →
    ∃ t, step s = .next t ∧ t.mem = s.mem ∧ t.params = s.params ∧ t.nsess = s.nsess ∧
      t.pending = rest ∧ t.results = s.results ∧
      ∀ h < t.nsess, (t.session h).bound = false ∧ (t.session h).state = .IDLE ∧
        (t.session h).out_base = 0 ∧ (t.session h).cap = 0 ∧ (t.session h).widx = 0 ∧
        (t.session h).frame_len = 0

/-- "Between commands it holds all state unchanged" (R135): with no input to come the state stays;
and a caller's own write between commands changes that byte of `M` and nothing else (R28, R41). -/
def Obligations.BetweenCommandsStateIsHeld : Prop :=
  ∀ s : State, s.params.accepted s.nsess = true →
    (s.pending = [] → step s = .next s) ∧
    (∀ a v rest, s.pending = .store a v :: rest → s.mem.wf →
      ∃ t, step s = .next t ∧ t.params = s.params ∧ t.sess = s.sess ∧ t.pending = rest ∧
        t.results = s.results ∧ t.mem.read a.toNat = v ∧
        ∀ x, x ≠ a.toNat → t.mem.read x = s.mem.read x)

/-- "A read has no side effect and returns the byte last written to that address. A write changes
only its own byte." (R41), and the canonical form is kept, so that memories that read alike are
equal. -/
def Obligations.MemoryIsPlain : Prop :=
  ∀ (s : State) (a : Nat) (v : Byte), s.mem.wf →
    (s.allows a .R = true → memRead a s = .done (s.mem.read a) s) ∧
    (s.allows a .W = true → ∃ t, memWrite a v s = .done () t ∧ t.mem.wf ∧ t.mem.read a = v ∧
      (∀ x, x ≠ a → t.mem.read x = s.mem.read x) ∧
      t.params = s.params ∧ t.sess = s.sess ∧ t.pending = s.pending ∧ t.results = s.results) ∧
    (∀ m : Memory, m.wf → (∀ x, m.read x = s.mem.read x) → m = s.mem)

/-- A byte access is made exactly when `addr < 2^AW` and `MEM_OK(addr, kind)`; otherwise it is
`MemFault(addr)` and nothing changes (R40); an address past the top does not wrap (R39). -/
def Obligations.EveryAccessIsChecked : Prop :=
  ∀ (s : State) (a : Nat) (v : Byte),
    (memRead a s = .memFault a s ↔ ¬ (a < addressLimit ∧ memOk s.params a .R = true)) ∧
    (memWrite a v s = .memFault a s ↔ ¬ (a < addressLimit ∧ memOk s.params a .W = true)) ∧
    (∀ x l, memRead a s = .memFault x l → x = a ∧ l = s) ∧
    (∀ x l, memWrite a v s = .memFault x l → x = a ∧ l = s)

/-! ### Invariants and whole-machine rules -/

/-- The machine right after reset meets the invariant. -/
def Obligations.ResetMeetsTheInvariant : Prop := State.reset.Inv

/-- Every step keeps the invariant: distinct markers, a memory in canonical form, and every session
with `0 <= widx <= cap` (R23), `frame_len <= cap`, `widx = 0` in IDLE, and the reset values when
unbound. The state that a `MemFault` leaves meets it too. -/
def Obligations.StepKeepsTheInvariant : Prop :=
  ∀ s t : State, s.Inv →
    (step s = .next t → t.Inv) ∧ (∀ a, step s = .fault (.memFault a t) → t.Inv)

/-- No step changes a parameter or the number of sessions (R8, R17), and each step takes at most one
input. A step that goes on adds at most one result record; one that faults adds none: the command
"does not complete, returns no result" (R40). -/
def Obligations.StepKeepsTheParameters : Prop :=
  ∀ s t : State,
    (step s = .next t →
      t.params = s.params ∧ t.nsess = s.nsess ∧ t.pending = s.pending.tail ∧
        (t.results = s.results ∨ ∃ r, t.results = s.results ++ [r])) ∧
    (∀ a, step s = .fault (.memFault a t) →
      t.params = s.params ∧ t.nsess = s.nsess ∧ t.pending = s.pending.tail ∧
        t.results = s.results)

/-- "The outcome EMPTY (code 2) is declared and never produced"; "Codes 5 to 7 are never produced.
The `state` value 3 is never produced" (R68): no record any step adds spells one of them. -/
def Obligations.EmptyIsNeverReturned : Prop :=
  ∀ (s t : State) (r : Result), step s = .next t → t.results = s.results ++ [r] →
    r.encode.extractLsb' 0 3 ≠ 2 ∧ r.encode.extractLsb' 0 3 < 5 ∧ r.encode.extractLsb' 4 2 ≠ 3

/-- "No command on session `h` reads or writes any field of a session `h' ≠ h`" (R17): whatever
session `h'` holds, a command that does not name it does the same, and leaves it as it was. ENC
names no session (R26). -/
def Obligations.SessionsAreIndependent : Prop :=
  ∀ (i : Instr) (s : State) (h' : Nat) (x : Session), namedSession i s ≠ some h' →
    exec i (s.setSession h' x) = mapOutcome (fun t => t.setSession h' x) (exec i s)

/-- No command reads an earlier outcome (R27): with other records returned so far it does the same and
returns the same record. The same with other inputs to come, a clause about the model's own list
`pending` (log 1): what a command reads comes from its own fields, its session and memory (R15). -/
def Obligations.CommandsReadNoEarlierOutcome : Prop :=
  ∀ (i : Instr) (s : State) (rs : List Result) (ps : List Input),
    exec i { s with results := rs ++ s.results, pending := ps } =
      mapOutcome (fun t => { t with results := rs ++ t.results, pending := ps }) (exec i s)

/-- Two DECB on different sessions commute when their output buffers do not overlap (R133): both
orders leave the same sessions and the same memory, and return the same two records. -/
def Obligations.SessionsCommute : Prop :=
  ∀ (s : State) (h h' : Handle) (k k' : Nat) (b b' : Byte), s.Inv →
    s.bindsSession h k → s.bindsSession h' k' → k ≠ k' →
    s.outputWritable k → s.outputWritable k' →
    apart (s.session k).out_base.toNat (s.session k).cap.toNat
      (s.session k').out_base.toNat (s.session k').cap.toNat →
    ∃ r r' t u t' u', answers (.decb h b) s r t ∧ answers (.decb h' b') t r' u ∧
      answers (.decb h' b') s r' t' ∧ answers (.decb h b) t' r u' ∧
      u'.sess = u.sess ∧ u'.mem = u.mem

/-- IDLE "is re-entered after every aborted frame (ERROR or OVERFLOW), and on every BIND. It is not
re-entered after a completed frame" (R19): a command that takes a session from another mode to IDLE
names that session, and is BIND or returns ERROR or OVERFLOW. -/
def Obligations.IdleIsReenteredOnlyByAbortOrBind : Prop :=
  ∀ (i : Instr) (s t : State) (r : Result) (k : Nat), k < s.nsess → answers i s r t →
    (s.session k).state ≠ .IDLE → (t.session k).state = .IDLE →
    namedSession i s = some k ∧
      ((∃ h a n, i = .bind h a n) ∨ r.outcome = .ERROR ∨ r.outcome = .OVERFLOW)

/-- `frame_len` changes only where R24 says: on BIND, which sets it to 0, and where COMPLETE is
returned, which sets it to the record's `length`; "No other event writes `frame_len`". -/
def Obligations.FrameLenIsLatchedOnComplete : Prop :=
  ∀ (i : Instr) (s t : State) (r : Result) (k : Nat), k < s.nsess → answers i s r t →
    (namedSession i s = some k → (∃ h a n, i = .bind h a n) → (t.session k).frame_len = 0) ∧
    (namedSession i s = some k → (¬ ∃ h a n, i = .bind h a n) → r.outcome = .COMPLETE →
      (t.session k).frame_len = r.length) ∧
    (namedSession i s ≠ some k ∨ ((¬ ∃ h a n, i = .bind h a n) ∧ r.outcome ≠ .COMPLETE) →
      (t.session k).frame_len = (s.session k).frame_len)

/-- Only BIND writes `bound`, `out_base` and `cap` (R20, R21). -/
def Obligations.OnlyBindChangesTheBinding : Prop :=
  ∀ (i : Instr) (s t : State) (k : Nat), (¬ ∃ h a n, i = .bind h a n) →
    exec i s = .next t ∨ (∃ a, exec i s = .fault (.memFault a t)) →
    (t.session k).bound = (s.session k).bound ∧
      (t.session k).out_base = (s.session k).out_base ∧ (t.session k).cap = (s.session k).cap

/-! ### Handles, BIND and STAT -/

/-- "Every command that takes a handle returns ERROR for an invalid one and changes nothing": a
handle is valid when `hp = 1` and `hidx < NSESS` (R62). -/
def Obligations.InvalidHandleReturnsError : Prop :=
  (∀ d : Descriptor, d.handle = if d.hp = 1 then .session d.hidx else .null) ∧
  (∀ (s : State) (k : Word), k.toNat < s.nsess → validSession (.session k) s = some k.toNat) ∧
  ∀ (s : State) (h : Handle) (a : Ref) (n : Word) (b : Byte),
    h = .null ∨ (∃ k : Word, h = .session k ∧ s.nsess ≤ k.toNat) →
    ∀ i ∈ [Instr.bind h a n, .decb h b, .decn h a n, .stat h],
      exec i s = .next { s with results := s.results ++ [⟨.ERROR, false, .IDLE, 0, 0, 0, 0, 0, 0⟩] }

/-- BIND (R75): the six session fields after it, for a present and for an absent buffer, and the
record; everything else, all of memory with it, is unchanged. -/
def Obligations.BindResult : Prop :=
  ∀ (s : State) (h : Handle) (a : Ref) (n : Word),
    (∀ k base, validSession h s = some k → a = .present base →
      exec (.bind h a n) s = .next { s with
        sess := s.sess.set k ⟨true, .IDLE, base, n, 0, 0⟩
        results := s.results ++ [⟨.CONTINUE, false, .IDLE, 0, 0, 0, 0, 0, 0⟩] }) ∧
    (∀ k, validSession h s = some k → a = .absent →
      exec (.bind h a n) s = .next { s with
        sess := s.sess.set k ⟨false, .IDLE, 0, 0, 0, 0⟩
        results := s.results ++ [⟨.CONTINUE, false, .IDLE, 0, 0, 0, 0, 0, 0⟩] }) ∧
    (validSession h s = none →
      exec (.bind h a n) s = .next { s with
        results := s.results ++ [⟨.ERROR, false, .IDLE, 0, 0, 0, 0, 0, 0⟩] })

/-- STAT (R100): the record carries the six fields of the session, on an unbound one too, and nothing
else changes. -/
def Obligations.StatResult : Prop :=
  ∀ (s : State) (h : Handle),
    (∀ k, validSession h s = some k →
      exec (.stat h) s = .next { s with
        results := s.results ++ [⟨.CONTINUE, (s.session k).bound, (s.session k).state, 0, 0,
          (s.session k).out_base, (s.session k).cap, (s.session k).widx,
          (s.session k).frame_len⟩] }) ∧
    (validSession h s = none →
      exec (.stat h) s = .next { s with
        results := s.results ++ [⟨.ERROR, false, .IDLE, 0, 0, 0, 0, 0, 0⟩] })

/-! ### DECB, case by case -/

/-- The pre-checks of DECB and DECN (R78): a session with `bound = 0`, and for DECN an absent input
buffer, give ERROR with `consumed = 0` and no effect, as an invalid handle does. -/
def Obligations.DecodePreChecks : Prop :=
  ∀ (s : State) (h : Handle) (a : Ref) (n : Word) (b : Byte),
    ((validSession h s = none ∨ ∃ k, validSession h s = some k ∧ (s.session k).bound = false) →
      exec (.decb h b) s = .next { s with
        results := s.results ++ [⟨.ERROR, false, .IDLE, 0, 0, 0, 0, 0, 0⟩] }) ∧
    ((validSession h s = none ∨ (∃ k, validSession h s = some k ∧ (s.session k).bound = false) ∨
        a = .absent) →
      exec (.decn h a n) s = .next { s with
        results := s.results ++ [⟨.ERROR, false, .IDLE, 0, 0, 0, 0, 0, 0⟩] })

/-- IDLE: END opens a frame (R80); any other byte is discarded and nothing is written (R81). -/
def Obligations.DecbInIdle : Prop :=
  ∀ (s : State) (h : Handle) (k : Nat) (b : Byte), s.bindsSession h k →
    (s.session k).state = .IDLE →
    (b = s.params.markers.END →
      exec (.decb h b) s = .next { s with
        sess := s.sess.set k { s.session k with state := .ACTIVE, widx := 0 }
        results := s.results ++ [⟨.CONTINUE, false, .IDLE, 0, 0, 0, 0, 0, 0⟩] }) ∧
    (b ≠ s.params.markers.END →
      exec (.decb h b) s = .next { s with
        results := s.results ++ [⟨.CONTINUE, false, .IDLE, 0, 0, 0, 0, 0, 0⟩] })

/-- ACTIVE on END: an empty frame is silent and changes nothing (R82); otherwise the frame is
complete, `frame_len` and the record's `length` are the write index, and the session stays ACTIVE
with `widx = 0` (R83). -/
def Obligations.DecbFrameEnd : Prop :=
  ∀ (s : State) (h : Handle) (k : Nat), s.bindsSession h k → (s.session k).state = .ACTIVE →
    ((s.session k).widx = 0 →
      exec (.decb h s.params.markers.END) s = .next { s with
        results := s.results ++ [⟨.CONTINUE, false, .IDLE, 0, 0, 0, 0, 0, 0⟩] }) ∧
    ((s.session k).widx ≠ 0 →
      exec (.decb h s.params.markers.END) s = .next { s with
        sess := s.sess.set k { s.session k with frame_len := (s.session k).widx, widx := 0 }
        results := s.results ++
          [⟨.COMPLETE, false, .IDLE, (s.session k).widx, 0, 0, 0, 0, 0⟩] })

/-- ACTIVE on ESC: the session goes to ESCAPED, and no byte is written yet, whatever the write index
is (R84). -/
def Obligations.DecbEscapeIntroducer : Prop :=
  ∀ (s : State) (h : Handle) (k : Nat), s.params.markers.distinct = true →
    s.bindsSession h k → (s.session k).state = .ACTIVE →
    exec (.decb h s.params.markers.ESC) s = .next { s with
      sess := s.sess.set k { s.session k with state := .ESCAPED }
      results := s.results ++ [⟨.CONTINUE, false, .IDLE, 0, 0, 0, 0, 0, 0⟩] }

/-- ACTIVE on a literal: with `widx = cap` the frame overflows and is aborted (R85, R91); with
`widx < cap` the byte is stored at `out_base + widx` and `widx` advances (R86), or the store raises
`MemFault` and nothing has changed (R40). -/
def Obligations.DecbLiteral : Prop :=
  ∀ (s : State) (h : Handle) (k : Nat) (b : Byte), s.bindsSession h k →
    (s.session k).state = .ACTIVE → b ≠ s.params.markers.END → b ≠ s.params.markers.ESC →
    ((s.session k).widx = (s.session k).cap →
      exec (.decb h b) s = .next { s with
        sess := s.sess.set k { s.session k with state := .IDLE, widx := 0 }
        results := s.results ++ [⟨.OVERFLOW, false, .IDLE, 0, 0, 0, 0, 0, 0⟩] }) ∧
    ((s.session k).widx < (s.session k).cap →
      s.allows ((s.session k).out_base.toNat + (s.session k).widx.toNat) .W = true →
      exec (.decb h b) s = .next { s with
        mem := s.mem.write ((s.session k).out_base.toNat + (s.session k).widx.toNat) b
        sess := s.sess.set k { s.session k with widx := (s.session k).widx + 1 }
        results := s.results ++ [⟨.CONTINUE, false, .IDLE, 0, 0, 0, 0, 0, 0⟩] }) ∧
    ((s.session k).widx < (s.session k).cap →
      s.allows ((s.session k).out_base.toNat + (s.session k).widx.toNat) .W = false →
      exec (.decb h b) s =
        .fault (.memFault ((s.session k).out_base.toNat + (s.session k).widx.toNat) s))

/-- ESCAPED: ESC_END stands for END and ESC_ESC for ESC (R87). With `widx < cap` that byte is stored
at the index before the increment and the session is ACTIVE (R88), or the store raises `MemFault`;
with `widx = cap` it overflows (R89); any other byte is an invalid escape, whatever `widx` and `cap`
are (R90). Both abort the frame (R91). -/
def Obligations.DecbEscaped : Prop :=
  ∀ (s : State) (h : Handle) (k : Nat) (b : Byte), s.params.markers.distinct = true →
    s.bindsSession h k → (s.session k).state = .ESCAPED →
    (∀ v, (b = s.params.markers.ESC_END ∧ v = s.params.markers.END) ∨
        (b = s.params.markers.ESC_ESC ∧ v = s.params.markers.ESC) →
      ((s.session k).widx < (s.session k).cap →
        s.allows ((s.session k).out_base.toNat + (s.session k).widx.toNat) .W = true →
        exec (.decb h b) s = .next { s with
          mem := s.mem.write ((s.session k).out_base.toNat + (s.session k).widx.toNat) v
          sess := s.sess.set k
            { s.session k with widx := (s.session k).widx + 1, state := .ACTIVE }
          results := s.results ++ [⟨.CONTINUE, false, .IDLE, 0, 0, 0, 0, 0, 0⟩] }) ∧
      ((s.session k).widx < (s.session k).cap →
        s.allows ((s.session k).out_base.toNat + (s.session k).widx.toNat) .W = false →
        exec (.decb h b) s =
          .fault (.memFault ((s.session k).out_base.toNat + (s.session k).widx.toNat) s)) ∧
      ((s.session k).widx = (s.session k).cap →
        exec (.decb h b) s = .next { s with
          sess := s.sess.set k { s.session k with state := .IDLE, widx := 0 }
          results := s.results ++ [⟨.OVERFLOW, false, .IDLE, 0, 0, 0, 0, 0, 0⟩] })) ∧
    (b ≠ s.params.markers.ESC_END → b ≠ s.params.markers.ESC_ESC →
      exec (.decb h b) s = .next { s with
        sess := s.sess.set k { s.session k with state := .IDLE, widx := 0 }
        results := s.results ++ [⟨.ERROR, false, .IDLE, 0, 0, 0, 0, 0, 0⟩] })

/-- "One byte gives exactly one outcome" (R124): ERROR, OVERFLOW and COMPLETE are each returned in
exactly the cases of R79, and every other byte returns CONTINUE, with `length` 0 unless COMPLETE. -/
def Obligations.OneByteOneOutcome : Prop :=
  ∀ (s t : State) (h : Handle) (k : Nat) (b : Byte) (r : Result), s.Inv → s.bindsSession h k →
    answers (.decb h b) s r t →
    let x := s.session k
    let m := s.params.markers
    (r.outcome = .ERROR ↔ x.state = .ESCAPED ∧ b ≠ m.ESC_END ∧ b ≠ m.ESC_ESC) ∧
    (r.outcome = .OVERFLOW ↔ x.widx = x.cap ∧
      ((x.state = .ACTIVE ∧ b ≠ m.END ∧ b ≠ m.ESC) ∨
        (x.state = .ESCAPED ∧ (b = m.ESC_END ∨ b = m.ESC_ESC)))) ∧
    (r.outcome = .COMPLETE ↔ x.state = .ACTIVE ∧ b = m.END ∧ x.widx ≠ 0) ∧
    (r.outcome ≠ .ERROR → r.outcome ≠ .OVERFLOW → r.outcome ≠ .COMPLETE →
      r.outcome = .CONTINUE) ∧
    (r.outcome ≠ .COMPLETE → r.length = 0)

/-- A delivered frame has `1 <= length <= cap` (R83, R93): the record's length is the latched
`frame_len`, and the session is ACTIVE with `widx = 0`. -/
def Obligations.DeliveredLengthIsWithinCapacity : Prop :=
  ∀ (i : Instr) (s t : State) (h : Handle) (k : Nat) (r : Result), s.Inv → s.bindsSession h k →
    ((∃ b, i = .decb h b) ∨ ∃ a n, i = .decn h a n) → answers i s r t → r.outcome = .COMPLETE →
    1 ≤ r.length.toNat ∧ r.length.toNat ≤ (s.session k).cap.toNat ∧
      (t.session k).frame_len = r.length ∧ (t.session k).state = .ACTIVE ∧ (t.session k).widx = 0

/-! ### DECN -/

/-- A DECN over real storage completes: the whole input buffer readable and the session's output
buffer writable, it answers one record. CONTINUE means every byte was consumed; any other outcome
counts the stopping byte (R95, R96, R97). -/
def Obligations.DecnCompletes : Prop :=
  ∀ (s : State) (h : Handle) (k : Nat) (a n : Word), s.Inv → s.bindsSession h k →
    s.canRead a.toNat n.toNat → s.outputWritable k →
    ∃ t r, answers (.decn h (.present a) n) s r t ∧ t.params = s.params ∧ t.pending = s.pending ∧
      r.consumed.toNat ≤ n.toNat ∧
      (r.outcome = .CONTINUE → r.consumed = n ∧ r.length = 0) ∧
      (r.outcome ≠ .CONTINUE → 1 ≤ r.consumed.toNat ∧
        (r.outcome = .COMPLETE ∨ r.outcome = .ERROR ∨ r.outcome = .OVERFLOW))

/-- DECN is DECB repeated (R95). Over no byte it returns CONTINUE and changes nothing. One byte more
changes nothing when the shorter DECN stopped, "at which point processing stops immediately" (R96),
or faulted; otherwise it reads byte `a + n` of the memory as it then is and does what DECB does with
it, `consumed` counting that byte (R97), and a `MemFault` keeps what the bytes before did (R98). -/
def Obligations.DecnIsDecbRepeated : Prop :=
  ∀ (s : State) (h : Handle) (k : Nat) (a : Word), s.bindsSession h k →
    exec (.decn h (.present a) 0) s = .next { s with
      results := s.results ++ [⟨.CONTINUE, false, .IDLE, 0, 0, 0, 0, 0, 0⟩] } ∧
    ∀ n : Nat, n + 1 < addressLimit →
      let shorter := exec (.decn h (.present a) (BitVec.ofNat 32 n)) s
      let longer := exec (.decn h (.present a) (BitVec.ofNat 32 (n + 1))) s
      (∀ f, shorter = .fault f → longer = .fault f) ∧
      (∀ t r, shorter = .next t → t.results = s.results ++ [r] → r.outcome ≠ .CONTINUE →
        longer = .next t) ∧
      (∀ t r, shorter = .next t → t.results = s.results ++ [r] → r.outcome = .CONTINUE →
        (t.allows (a.toNat + n) .R = false →
          longer = .fault (.memFault (a.toNat + n) { t with results := s.results })) ∧
        (t.allows (a.toNat + n) .R = true →
          (∀ u r', answers (.decb h (t.mem.read (a.toNat + n))) t r' u →
            longer = .next { u with
              results := s.results ++ [{ r' with consumed := BitVec.ofNat 32 (n + 1) }] }) ∧
          (∀ x l, exec (.decb h (t.mem.read (a.toNat + n))) t = .fault (.memFault x l) →
            longer = .fault (.memFault x { l with results := s.results }))))

/-- What DECB and DECN leave unchanged, whether they complete or fault (R25, R42, R43): the other
sessions, the binding of their own, the parameters, and every byte of memory outside the session's
output buffer `out_base .. out_base + cap`. -/
def Obligations.DecodeFrame : Prop :=
  ∀ (i : Instr) (s t : State) (h : Handle) (k : Nat), s.Inv → s.bindsSession h k →
    ((∃ b, i = .decb h b) ∨ ∃ a n, i = .decn h a n) →
    exec i s = .next t ∨ (∃ a, exec i s = .fault (.memFault a t)) →
    t.params = s.params ∧ t.pending = s.pending ∧ t.nsess = s.nsess ∧
      (∀ j, j ≠ k → t.session j = s.session j) ∧
      (t.session k).bound = (s.session k).bound ∧
      (t.session k).out_base = (s.session k).out_base ∧ (t.session k).cap = (s.session k).cap ∧
      s.mem.sameOutside t.mem (s.session k).out_base.toNat (s.session k).cap.toNat

/-- A DECN over an input buffer that the session's output buffer does not overlap is `Run` over its
bytes up to the first outcome that is not CONTINUE (R95, R101): `Run` over the `consumed` bytes
leaves the same sessions and memory, with no event when the record says CONTINUE, and otherwise with
the one event that the record reports, on the last of them. -/
def Obligations.DecnReducesToRun : Prop :=
  ∀ (s t : State) (h : Handle) (k : Nat) (a n : Word) (r : Result), s.Inv → s.bindsSession h k →
    apart a.toNat n.toNat (s.session k).out_base.toNat (s.session k).cap.toNat →
    answers (.decn h (.present a) n) s r t →
    ∃ u es, run k (s.mem.bytes a.toNat r.consumed.toNat) 0 s = .done es u ∧
      u.sess = t.sess ∧ u.mem = t.mem ∧
      (r.outcome = .CONTINUE → es = []) ∧
      (r.outcome ≠ .CONTINUE → es = [⟨r.consumed.toNat - 1, r.outcome, r.length⟩])

/-- FEED (R71): its `k + 1` commands each return a record of their own, none is skipped after an
outcome that is not CONTINUE, and together they are `Run` over its bytes (R101). -/
def Obligations.FeedReducesToRun : Prop :=
  ∀ (s : State) (h : Handle) (k : Nat) (w : List Byte) (rest : List Input), s.Inv →
    s.bindsSession h k → s.outputWritable k → s.pending = presented (feed h w) ++ rest →
    ∃ t u es rs, Host.Core.run Sys2Proof.core w.length s = .next t ∧
      run k w 0 s = .done es u ∧ t.sess = u.sess ∧ t.mem = u.mem ∧ t.params = s.params ∧
      t.pending = rest ∧ t.results = s.results ++ rs ∧ rs.length = w.length ∧
      delivered rs = es.map (fun e => (e.outcome, e.length)) ∧
      ∀ e ∈ es, rs[e.index]? = some { outcome := e.outcome, length := e.length }

/-- The caller's bulk decoding of a stream (R99, R143): DECN on each chunk, invoked again on the
remainder until the chunk is consumed. `BulkDecoded h a chunks s t` says that doing so for
consecutive chunks of the lengths `chunks` from address `a` on leads from `s` to `t`. -/
inductive BulkDecoded (h : Handle) : Nat → List Nat → State → State → Prop
  | done (a : Nat) (s : State) : BulkDecoded h a [] s s
  | chunk (a c : Nat) (cs : List Nat) (s t u : State) (r : Result) (hc : c < addressLimit)
      (ha : a < addressLimit)
      (hr : answers (.decn h (.present (BitVec.ofNat 32 a)) (BitVec.ofNat 32 c)) s r t)
      (rest : BulkDecoded h (a + r.consumed.toNat)
        (if r.consumed.toNat = c then cs else (c - r.consumed.toNat) :: cs) t u) :
      BulkDecoded h a (c :: cs) s u

/-- Chunk-size independence (R99): "decoding a given wire sequence byte-by-byte versus in one bulk
call yields the same final payload and outcome sequence". For a wire sequence in readable memory that
the output buffer does not overlap, and for any split of it into chunks, bulk decoding with
re-invocation on each remainder reaches an end, and every such end has the same outcomes that are not
CONTINUE, with the same lengths, the same memory and the same sessions as one DECB per byte. -/
def Obligations.ChunkSizeIndependence : Prop :=
  ∀ (s : State) (h : Handle) (k a : Nat) (chunks : List Nat), s.Inv → s.bindsSession h k →
    s.pending = presented (feed h (s.mem.bytes a chunks.sum)) →
    a + chunks.sum < addressLimit → s.canRead a chunks.sum → s.outputWritable k →
    apart a chunks.sum (s.session k).out_base.toNat (s.session k).cap.toNat →
    ∃ u us, Host.Core.run Sys2Proof.core chunks.sum s = .next u ∧ u.results = s.results ++ us ∧
      (∃ t, BulkDecoded h a chunks s t) ∧
      ∀ t, BulkDecoded h a chunks s t →
        t.sess = u.sess ∧ t.mem = u.mem ∧ t.params = u.params ∧
        ∃ ts, t.results = s.results ++ ts ∧ delivered ts = delivered us

/-! ### The wire format and the decoder over whole streams -/

/-- "So a frame of `n` payload bytes, `e` of which are in `{END, ESC}`, takes `n + e + 2` wire bytes,
and at most `2n + 2`" (R56), with equality when every payload byte is END or ESC (R113). -/
def Obligations.FrameLength : Prop :=
  ∀ (m : Markers) (P : List Byte),
    (frame m P).length = P.length + P.countP (fun b => b == m.END || b == m.ESC) + 2 ∧
    requiredLength m P = (frame m P).length ∧ requiredLength m P ≤ 2 * P.length + 2 ∧
    (requiredLength m P = 2 * P.length + 2 ↔ ∀ b ∈ P, b = m.END ∨ b = m.ESC)

/-- "The map from `P` to its frame is injective, because the escape map of rule R110 is a prefix
code" (R117). -/
def Obligations.FramesAreInjective : Prop :=
  ∀ (m : Markers) (P Q : List Byte), m.distinct = true → frame m P = frame m Q → P = Q

/-- `Run` over the frame of a payload, from IDLE or from ACTIVE with `widx = 0` (R102): for a payload
of 1 to `cap` bytes, CONTINUE on every byte but the last and COMPLETE with its length there, the
payload in the output buffer, no other byte written, and the session ACTIVE with `widx = 0`; for the
empty payload no event and no store. -/
def Obligations.RunOverAFrameDeliversIt : Prop :=
  ∀ (s : State) (h : Handle) (k : Nat) (P : List Byte), s.Inv → s.bindsSession h k →
    s.outputWritable k → P.length ≤ (s.session k).cap.toNat →
    (s.session k).state = .IDLE ∨
      ((s.session k).state = .ACTIVE ∧ (s.session k).widx = 0) →
    ∃ t, run k (frame s.params.markers P) 0 s =
        .done (if P = [] then []
          else [⟨(frame s.params.markers P).length - 1, .COMPLETE, BitVec.ofNat 32 P.length⟩]) t ∧
      t.sess = s.sess.set k { s.session k with
        state := .ACTIVE, widx := 0,
        frame_len := if P = [] then (s.session k).frame_len else BitVec.ofNat 32 P.length } ∧
      t.mem.bytes (s.session k).out_base.toNat P.length = P ∧
      s.mem.sameOutside t.mem (s.session k).out_base.toNat P.length

/-- Round trip (R102, R117): ENC of a non-empty payload, then DECN over the `L(P)` bytes it wrote, on
a session in IDLE or in ACTIVE with `widx = 0` whose capacity suffices. ENC completes with `L(P)`;
DECN completes on the last byte with `length = len(P)`; and the output buffer holds the payload. -/
def Obligations.DecodingInvertsEncodingOfPayloads : Prop :=
  ∀ (s : State) (h : Handle) (k : Nat) (P : List Byte) (p n o c len : Word), s.Inv →
    s.bindsSession h k → P ≠ [] → P.length = n.toNat → s.mem.bytes p.toNat n.toNat = P →
    requiredLength s.params.markers P = len.toNat → len.toNat ≤ c.toNat →
    n.toNat ≤ (s.session k).cap.toNat →
    (s.session k).state = .IDLE ∨
      ((s.session k).state = .ACTIVE ∧ (s.session k).widx = 0) →
    s.canRead p.toNat n.toNat → s.canWrite o.toNat len.toNat → s.canRead o.toNat len.toNat →
    s.outputWritable k → apart p.toNat n.toNat o.toNat len.toNat →
    apart o.toNat len.toNat (s.session k).out_base.toNat (s.session k).cap.toNat →
    ∃ t u, answers (.enc (.present p) n (.present o) (.value c)) s
        { outcome := .COMPLETE, length := len } t ∧
      answers (.decn h (.present o) len) t
        { outcome := .COMPLETE, length := n, consumed := len } u ∧
      u.mem.bytes (s.session k).out_base.toNat n.toNat = P ∧
      u.session k = { s.session k with state := .ACTIVE, widx := 0, frame_len := n }

/-- Resynchronisation (R103): from IDLE, "an arbitrary garbage byte sequence followed by a well-formed
frame always yields exactly that frame's payload", as long as the garbage holds no END. -/
def Obligations.ResynchronisesAfterGarbage : Prop :=
  ∀ (s : State) (h : Handle) (k : Nat) (g P : List Byte), s.Inv → s.bindsSession h k →
    s.outputWritable k → P.length ≤ (s.session k).cap.toNat → P ≠ [] →
    (s.session k).state = .IDLE → s.params.markers.END ∉ g →
    ∃ t, run k (g ++ frame s.params.markers P) 0 s =
        .done [⟨g.length + (frame s.params.markers P).length - 1, .COMPLETE,
          BitVec.ofNat 32 P.length⟩] t ∧
      t.session k = { s.session k with
        state := .ACTIVE, widx := 0, frame_len := BitVec.ofNat 32 P.length } ∧
      t.mem.bytes (s.session k).out_base.toNat P.length = P

/-- Back-to-back frames with a shared boundary (R104), for any two literal bytes: from IDLE,
`[END, x, END, y, END]` delivers `[x]` at index 2 and `[y]` at index 4. -/
def Obligations.SharedBoundaryDeliversBothFrames : Prop :=
  ∀ (s : State) (h : Handle) (k : Nat) (x y : Byte), s.Inv → s.bindsSession h k →
    s.outputWritable k → 1 ≤ (s.session k).cap.toNat → (s.session k).state = .IDLE →
    x ≠ s.params.markers.END → x ≠ s.params.markers.ESC →
    y ≠ s.params.markers.END → y ≠ s.params.markers.ESC →
    let E := s.params.markers.END
    ∃ t u, run k [E, x, E] 0 s = .done [⟨2, .COMPLETE, 1⟩] t ∧
      t.mem.read (s.session k).out_base.toNat = x ∧
      run k [E, x, E, y, E] 0 s = .done [⟨2, .COMPLETE, 1⟩, ⟨4, .COMPLETE, 1⟩] u ∧
      u.mem.read (s.session k).out_base.toNat = y ∧
      u.session k = { s.session k with state := .ACTIVE, widx := 0, frame_len := 1 }

/-- Capacity boundary (R105): a frame of more than `cap` payload bytes returns OVERFLOW on the wire
byte that would store payload byte `cap + 1`, the literal itself or the code byte after its ESC; the
rest of it is discarded and its trailing END opens a new frame; the first `cap` payload bytes are in
the buffer and no byte past `out_base + cap - 1` is written. -/
def Obligations.CapacityBoundary : Prop :=
  ∀ (s : State) (h : Handle) (k : Nat) (P : List Byte), s.Inv → s.bindsSession h k →
    s.outputWritable k → (s.session k).cap.toNat < P.length →
    (s.session k).state = .IDLE ∨
      ((s.session k).state = .ACTIVE ∧ (s.session k).widx = 0) →
    ∃ t, run k (frame s.params.markers P) 0 s =
        .done [⟨(frameBody s.params.markers (P.take ((s.session k).cap.toNat + 1))).length,
          .OVERFLOW, 0⟩] t ∧
      t.session k = { s.session k with state := .ACTIVE, widx := 0 } ∧
      t.mem.bytes (s.session k).out_base.toNat (s.session k).cap.toNat =
        P.take (s.session k).cap.toNat ∧
      s.mem.sameOutside t.mem (s.session k).out_base.toNat (s.session k).cap.toNat

/-- Noise after a completed frame is delivered as a frame (R149): in ACTIVE with `widx = 0`, a
non-empty run of literal bytes that fits, and then an END, returns COMPLETE with its length. -/
def Obligations.NoiseAfterAFrameIsDelivered : Prop :=
  ∀ (s : State) (h : Handle) (k : Nat) (g : List Byte), s.Inv → s.bindsSession h k →
    s.outputWritable k → g ≠ [] → g.length ≤ (s.session k).cap.toNat →
    (s.session k).state = .ACTIVE → (s.session k).widx = 0 →
    s.params.markers.END ∉ g → s.params.markers.ESC ∉ g →
    ∃ t, run k (g ++ [s.params.markers.END]) 0 s =
        .done [⟨g.length, .COMPLETE, BitVec.ofNat 32 g.length⟩] t ∧
      t.session k = { s.session k with
        state := .ACTIVE, widx := 0, frame_len := BitVec.ofNat 32 g.length } ∧
      t.mem.bytes (s.session k).out_base.toNat g.length = g

/-- "An END right after an ESC is consumed by the ERROR it causes" (R150): from ESCAPED, the frame
that this END would have opened is lost, no byte of it is stored, and its trailing END opens the next
one. -/
def Obligations.EndAfterEscLosesTheNextFrame : Prop :=
  ∀ (s : State) (h : Handle) (k : Nat) (P : List Byte), s.Inv → s.bindsSession h k →
    (s.session k).state = .ESCAPED →
    run k (frame s.params.markers P) 0 s =
      .done [⟨0, .ERROR, 0⟩]
        (s.setSession k { s.session k with state := .ACTIVE, widx := 0 })

/-- The source's error example (95 S4) under every marker set that meets R9 and R10: from IDLE with a
capacity of at least 1, `[END, 0x01, ESC, 0xFF, END, 0x02, END]` returns ERROR at index 3, then
COMPLETE with length 1 at index 6, and the buffer holds `0x02`. -/
def Obligations.SourceErrorExample : Prop :=
  ∀ (s : State) (h : Handle) (k : Nat), s.Inv → s.params.markers.admitExamples = true →
    s.bindsSession h k → s.outputWritable k → 1 ≤ (s.session k).cap.toNat →
    (s.session k).state = .IDLE →
    let m := s.params.markers
    ∃ t, run k [m.END, 0x01, m.ESC, 0xFF, m.END, 0x02, m.END] 0 s =
        .done [⟨3, .ERROR, 0⟩, ⟨6, .COMPLETE, 1⟩] t ∧
      t.mem.read (s.session k).out_base.toNat = 0x02 ∧
      t.session k = { s.session k with state := .ACTIVE, widx := 0, frame_len := 1 }

/-- "The default profile satisfies rule R9 and rule R10" (R11), and it is the profile after reset. -/
def Obligations.DefaultProfile : Prop :=
  State.reset.params.markers = ⟨0xC0, 0xDB, 0xDC, 0xDD⟩ ∧
    Markers.defaultProfile = ⟨0xC0, 0xDB, 0xDC, 0xDD⟩ ∧
    Markers.defaultProfile.distinct = true ∧ Markers.defaultProfile.admitExamples = true

/-! ### ENC -/

/-- "ENC returns ERROR when `ap = 0`, `bp = 0` or `cp = 0`, whatever the value of `n`" (R107). It
then reads no memory and writes nothing, and the caller's C is not updated. -/
def Obligations.EncAbsentOperandReturnsError : Prop :=
  ∀ (s : State) (a b : Ref) (c : Capacity) (n old : Word),
    a = .absent ∨ b = .absent ∨ c = .absent →
    exec (.enc a n b c) s = .next { s with
      results := s.results ++ [⟨.ERROR, false, .IDLE, 0, 0, 0, 0, 0, 0⟩] } ∧
    callersCapacity old ⟨.ERROR, false, .IDLE, 0, 0, 0, 0, 0, 0⟩ = old

/-- ENC success (R109, R111, R112): with a capacity of at least `L(P)`, a readable payload and a
writable output that do not overlap, ENC returns COMPLETE with `length = L(P)`, which becomes the
caller's C; the output bytes `o + 0` to `o + L(P) - 1` are the frame, no other byte is written, and no
session is touched. -/
def Obligations.EncWritesTheFrame : Prop :=
  ∀ (s : State) (P : List Byte) (p n o c : Word) (old : Word), s.Inv → P.length = n.toNat →
    s.mem.bytes p.toNat n.toNat = P → requiredLength s.params.markers P ≤ c.toNat →
    s.canRead p.toNat n.toNat → s.canWrite o.toNat (requiredLength s.params.markers P) →
    apart p.toNat n.toNat o.toNat (requiredLength s.params.markers P) →
    ∃ m' : Memory,
      exec (.enc (.present p) n (.present o) (.value c)) s = .next { s with
        mem := m'
        results := s.results ++ [⟨.COMPLETE, false, .IDLE,
          BitVec.ofNat 32 (requiredLength s.params.markers P), 0, 0, 0, 0, 0⟩] } ∧
      m'.bytes o.toNat (requiredLength s.params.markers P) = frame s.params.markers P ∧
      s.mem.sameOutside m' o.toNat (requiredLength s.params.markers P) ∧
      (callersCapacity old ⟨.COMPLETE, false, .IDLE,
        BitVec.ofNat 32 (requiredLength s.params.markers P), 0, 0, 0, 0, 0⟩).toNat =
        requiredLength s.params.markers P

/-- ENC overflow (R114): with a capacity below `L(P)`, ENC returns OVERFLOW with `length = 0`, the
caller's C is not updated, the output holds the first `cap` bytes of the frame, and no other byte is
written. It needs readable only "those whose encoding begins at an output position of `cap` or less". -/
def Obligations.EncOverflowLeavesThePrefix : Prop :=
  ∀ (s : State) (P : List Byte) (p n o c : Word), s.Inv → P.length = n.toNat →
    s.mem.bytes p.toNat n.toNat = P → c.toNat < requiredLength s.params.markers P →
    (∀ i < n.toNat, 1 + (frameBody s.params.markers (P.take i)).length ≤ c.toNat →
      s.allows (p.toNat + i) .R = true) →
    s.canWrite o.toNat c.toNat → apart p.toNat n.toNat o.toNat c.toNat →
    ∃ m' : Memory,
      exec (.enc (.present p) n (.present o) (.value c)) s = .next { s with
        mem := m'
        results := s.results ++ [⟨.OVERFLOW, false, .IDLE, 0, 0, 0, 0, 0, 0⟩] } ∧
      m'.bytes o.toNat c.toNat = (frame s.params.markers P).take c.toNat ∧
      s.mem.sameOutside m' o.toNat c.toNat ∧
      callersCapacity c ⟨.OVERFLOW, false, .IDLE, 0, 0, 0, 0, 0, 0⟩ = c

/-- "ENC succeeds if and only if `cap ≥ L(P)`. It then returns `length = L(P)`" (R112), and a
capacity of at least `2n + 2` never overflows (R113); for a payload and an output in real storage that
do not overlap. -/
def Obligations.EncSucceedsIffCapacitySuffices : Prop :=
  ∀ (s : State) (P : List Byte) (p n o c : Word), s.Inv → P.length = n.toNat →
    s.mem.bytes p.toNat n.toNat = P → s.canRead p.toNat n.toNat → s.canWrite o.toNat c.toNat →
    apart p.toNat n.toNat o.toNat c.toNat →
    ∃ t r, answers (.enc (.present p) n (.present o) (.value c)) s r t ∧
      (r.outcome = .COMPLETE ↔ requiredLength s.params.markers P ≤ c.toNat) ∧
      (r.outcome = .COMPLETE → r.length.toNat = requiredLength s.params.markers P) ∧
      (r.outcome ≠ .COMPLETE → r.outcome = .OVERFLOW ∧ r.length = 0) ∧
      (2 * n.toNat + 2 ≤ c.toNat → r.outcome = .COMPLETE)

/-- ENC over real storage completes, overlapping buffers included (R44, R152): with the payload
readable and the whole capacity writable it answers one record, COMPLETE with a length of at most the
capacity, or OVERFLOW with `length = 0` (R114, R124); from a capacity of `2n + 2` on it is COMPLETE
(R113). -/
def Obligations.EncCompletes : Prop :=
  ∀ (s : State) (p n o c : Word), s.canRead p.toNat n.toNat → s.canWrite o.toNat c.toNat →
    ∃ t r, answers (.enc (.present p) n (.present o) (.value c)) s r t ∧
      ((r.outcome = .COMPLETE ∧ n.toNat + 2 ≤ r.length.toNat ∧ r.length.toNat ≤ c.toNat) ∨
        (r.outcome = .OVERFLOW ∧ r.length = 0)) ∧
      (2 * n.toNat + 2 ≤ c.toNat → r.outcome = .COMPLETE)

/-- The empty payload (R115): ENC writes `[END, END]` and returns COMPLETE with `length = 2` when
`cap >= 2`, and OVERFLOW when `cap < 2`; no payload byte is read. The payload reference must still be
present. -/
def Obligations.EncEmptyPayload : Prop :=
  ∀ (s : State) (p o c : Word), s.Inv → s.canWrite o.toNat (min 2 c.toNat) →
    (2 ≤ c.toNat →
      exec (.enc (.present p) 0 (.present o) (.value c)) s = .next { s with
        mem := (s.mem.write o.toNat s.params.markers.END).write (o.toNat + 1) s.params.markers.END
        results := s.results ++ [⟨.COMPLETE, false, .IDLE, 2, 0, 0, 0, 0, 0⟩] }) ∧
    (c.toNat < 2 →
      exec (.enc (.present p) 0 (.present o) (.value c)) s = .next { s with
        mem := if c.toNat = 0 then s.mem else s.mem.write o.toNat s.params.markers.END
        results := s.results ++ [⟨.OVERFLOW, false, .IDLE, 0, 0, 0, 0, 0, 0⟩] }) ∧
    exec (.enc .absent 0 (.present o) (.value c)) s = .next { s with
      results := s.results ++ [⟨.ERROR, false, .IDLE, 0, 0, 0, 0, 0, 0⟩] }

/-- Overlapping buffers of ENC give the result of the access order (R44): the frame written is that of
the bytes read, and payload byte `i` is read after the bytes that encode the bytes before it are
written, so it sees them where the buffers overlap, and the caller's byte elsewhere. -/
def Obligations.EncSeesItsOwnEarlierWrites : Prop :=
  ∀ (s t : State) (p n o c : Word) (r : Result), s.Inv →
    answers (.enc (.present p) n (.present o) (.value c)) s r t → r.outcome = .COMPLETE →
    ∃ P : List Byte, P.length = n.toNat ∧
      r.length.toNat = (frame s.params.markers P).length ∧
      t.mem.bytes o.toNat r.length.toNat = frame s.params.markers P ∧
      s.mem.sameOutside t.mem o.toNat r.length.toNat ∧
      ∀ i < n.toNat, P[i]? = some (
        if o.toNat ≤ p.toNat + i ∧
            p.toNat + i < o.toNat + 1 + (frameBody s.params.markers (P.take i)).length
        then (frame s.params.markers P).getD (p.toNat + i - o.toNat) 0
        else s.mem.read (p.toNat + i))

/-- What ENC leaves unchanged, whether it completes or faults, on any operands (R26, R43): every
session, the parameters, the inputs to come, and every byte of memory outside `o .. o + cap`. -/
def Obligations.EncFrame : Prop :=
  ∀ (s t : State) (a b : Ref) (c : Capacity) (n : Word), s.Inv →
    exec (.enc a n b c) s = .next t ∨ (∃ x, exec (.enc a n b c) s = .fault (.memFault x t)) →
    t.params = s.params ∧ t.sess = s.sess ∧ t.pending = s.pending ∧
      s.mem.sameOutside t.mem (b.addr.toNat) (if b = .absent then 0 else c.amount.toNat)

/-- ENC faults on the first byte it reaches, in the order of R109, that fails the access check (R39,
R40, R116 (4)), overlapping buffers included. `P` is the payload as ENC reads it (R44): a byte that the
output bytes before its own encoding cover is the frame's, any other is the caller's. Payload byte `i`
is reached at output position `1 + |the encoding of the bytes before it|`, at or below the capacity,
once every payload byte before it is read and every output byte before that position is written; output
byte `q` is reached, below the capacity, once every output byte before it is written and every payload
byte whose encoding begins at `q` or before is read. The fault names that byte's address; no result is
returned, no session changes, the output bytes before it stay written, and no other byte changes. -/
def Obligations.EncFaultsOnTheFirstRefusedByte : Prop :=
  ∀ (s : State) (P : List Byte) (p n o c : Word), s.Inv → P.length = n.toNat →
    (∀ i < n.toNat, P[i]? = some (
      if o.toNat ≤ p.toNat + i ∧
          p.toNat + i < o.toNat + 1 + (frameBody s.params.markers (P.take i)).length
      then (frame s.params.markers P).getD (p.toNat + i - o.toNat) 0
      else s.mem.read (p.toNat + i))) →
    (∀ i < n.toNat, s.allows (p.toNat + i) .R = false →
      1 + (frameBody s.params.markers (P.take i)).length ≤ c.toNat → s.canRead p.toNat i →
      s.canWrite o.toNat (1 + (frameBody s.params.markers (P.take i)).length) →
      ∃ m' : Memory,
        exec (.enc (.present p) n (.present o) (.value c)) s =
          .fault (.memFault (p.toNat + i) { s with mem := m' }) ∧
        m'.bytes o.toNat (1 + (frameBody s.params.markers (P.take i)).length) =
          s.params.markers.END :: frameBody s.params.markers (P.take i) ∧
        s.mem.sameOutside m' o.toNat (1 + (frameBody s.params.markers (P.take i)).length)) ∧
    (∀ q < (frame s.params.markers P).length, s.allows (o.toNat + q) .W = false →
      q < c.toNat → s.canWrite o.toNat q →
      (∀ i < n.toNat, 1 + (frameBody s.params.markers (P.take i)).length ≤ q →
        s.allows (p.toNat + i) .R = true) →
      ∃ m' : Memory,
        exec (.enc (.present p) n (.present o) (.value c)) s =
          .fault (.memFault (o.toNat + q) { s with mem := m' }) ∧
        m'.bytes o.toNat q = (frame s.params.markers P).take q ∧
        s.mem.sameOutside m' o.toNat q)
end

