-- ==== Sys2Proof/Laws/Memory.lean ====
section
/-! SUPPORT. The laws of the byte memory: a read after a write, the canonical form, and that memories
that read alike are equal (20_memory.md R41). -/

namespace Sys2Proof.Machine

theorem read_of_lt_all {m : Memory} {a : Nat} (h : ∀ c ∈ m, a < c.1) : m.read a = Memory.fill := by
  induction m with
  | nil => rfl
  | cons c m ih =>
    have hc := h c (by simp)
    simp only [Memory.read]
    rw [if_neg (by omega)]
    exact ih (fun d hd => h d (by simp [hd]))

/-- A write keeps every address at or above the old ones and the new one. -/
theorem write_lower {m : Memory} {a b : Nat} {v : Byte} (hb : b < a) (h : ∀ c ∈ m, b < c.1) :
    ∀ c ∈ m.write a v, b < c.1 := by
  induction m with
  | nil => intro c; simp only [Memory.write]; split <;> simp; rintro rfl; exact hb
  | cons d m ih =>
    obtain ⟨k, w⟩ := d
    simp only [List.mem_cons, forall_eq_or_imp] at h
    intro c
    simp only [Memory.write]
    split
    · split <;> simp only [List.mem_cons]
      · rintro (rfl | hc); exacts [h.1, h.2 c hc]
      · rintro (rfl | rfl | hc); exacts [hb, h.1, h.2 c hc]
    · split
      · split
        · exact h.2 c
        · simp only [List.mem_cons]; rintro (rfl | hc); exacts [hb, h.2 c hc]
      · simp only [List.mem_cons]; rintro (rfl | hc); exacts [h.1, ih h.2 c hc]

/-- A write inside the address space keeps the canonical form. -/
theorem write_wf {m : Memory} {a : Nat} {v : Byte} (hm : m.wf) (ha : a < addressLimit) :
    (m.write a v).wf := by
  induction m with
  | nil => simp only [Memory.write]; split <;> simp [Memory.wf, *]
  | cons d m ih =>
    obtain ⟨k, w⟩ := d
    obtain ⟨hp, hc⟩ := hm
    simp only [List.pairwise_cons] at hp
    simp only [List.mem_cons, forall_eq_or_imp] at hc
    have hm' : Memory.wf m := ⟨hp.2, hc.2⟩
    simp only [Memory.write]
    split
    · rename_i hak
      split
      · exact ⟨List.pairwise_cons.2 hp, List.forall_mem_cons.2 hc⟩
      · rename_i hv
        refine ⟨?_, List.forall_mem_cons.2 ⟨⟨ha, hv⟩, List.forall_mem_cons.2 hc⟩⟩
        simp only [List.pairwise_cons, List.mem_cons, forall_eq_or_imp]
        exact ⟨⟨hak, fun c hcm => lt_trans hak (hp.1 c hcm)⟩, hp⟩
    · split
      · rename_i hak
        split
        · exact hm'
        · rename_i hv
          subst hak
          exact ⟨List.pairwise_cons.2 hp, List.forall_mem_cons.2 ⟨⟨ha, hv⟩, hc.2⟩⟩
      · obtain ⟨hp', hc'⟩ := ih hm'
        refine ⟨?_, List.forall_mem_cons.2 ⟨hc.1, hc'⟩⟩
        simp only [List.pairwise_cons]
        exact ⟨write_lower (by omega) hp.1, hp'⟩

/-- A read returns the byte last written, and a write changes its own byte only (R41). -/
theorem read_write {m : Memory} {a b : Nat} {v : Byte} (hm : m.wf) :
    (m.write a v).read b = if b = a then v else m.read b := by
  induction m with
  | nil =>
    simp only [Memory.write]
    split <;> simp [Memory.read, eq_comm, *]
  | cons d m ih =>
    obtain ⟨k, w⟩ := d
    obtain ⟨hp, hc⟩ := hm
    simp only [List.pairwise_cons] at hp
    simp only [List.mem_cons, forall_eq_or_imp] at hc
    have ih := ih ⟨hp.2, hc.2⟩
    have hall : ∀ c, c ≤ k → Memory.read m c = Memory.fill := fun c hck =>
      read_of_lt_all (fun e he => lt_of_le_of_lt hck (hp.1 e he))
    simp only [Memory.write]
    split
    · rename_i hak
      split
      · rename_i hv
        split
        · subst_vars; simp only [Memory.read]; rw [if_neg (by omega)]; exact hall _ (by omega)
        · rfl
      · simp only [Memory.read, eq_comm]
    · split
      · rename_i hak
        subst hak
        split
        · rename_i hv
          split
          · subst_vars; exact hall _ le_rfl
          · simp only [Memory.read]; rw [if_neg (by omega)]
        · simp only [Memory.read]
          split
          · subst_vars; simp
          · rw [if_neg (by omega)]
      · simp only [Memory.read, ih]
        split
        · subst_vars; rw [if_neg (by omega)]
        · rfl

@[simp] theorem read_write_same {m : Memory} {a : Nat} {v : Byte} (hm : m.wf) :
    (m.write a v).read a = v := by simp [read_write hm]

theorem read_write_other {m : Memory} {a b : Nat} {v : Byte} (hm : m.wf) (h : b ≠ a) :
    (m.write a v).read b = m.read b := by simp [read_write hm, h]

theorem read_cons_of_lt {m : Memory} {k a : Nat} {w : Byte} (h : k < a) :
    Memory.read ((k, w) :: m) a = m.read a := by
  simp only [Memory.read]; rw [if_neg (by omega)]

/-- Memories in canonical form that read alike are equal. -/
theorem memory_ext : ∀ {m m' : Memory}, m.wf → m'.wf → (∀ a, m.read a = m'.read a) → m = m'
  | [], [], _, _, _ => rfl
  | [], (k, w) :: m', _, h', he => by
    have := he k
    simp only [Memory.read, if_true] at this
    exact absurd this.symm (h'.2 (k, w) (by simp)).2
  | (k, w) :: m, [], h, _, he => by
    have := he k
    simp only [Memory.read, if_true] at this
    exact absurd this (h.2 (k, w) (by simp)).2
  | (k, w) :: m, (k', w') :: m', h, h', he => by
    have hw := (h.2 (k, w) (by simp)).2
    have hw' := (h'.2 (k', w') (by simp)).2
    have hp := List.pairwise_cons.1 h.1
    have hp' := List.pairwise_cons.1 h'.1
    have hkk : k = k' := by
      rcases lt_trichotomy k k' with hlt | heq | hgt
      · have h1 := he k
        rw [read_of_lt_all (m := (k', w') :: m')] at h1
        · simp only [Memory.read, if_true] at h1; exact absurd h1 hw
        · intro c hc
          rcases List.mem_cons.1 hc with rfl | hc
          · exact hlt
          · exact lt_trans hlt (hp'.1 c hc)
      · exact heq
      · have h1 := he k'
        rw [read_of_lt_all (m := (k, w) :: m)] at h1
        · simp only [Memory.read, if_true] at h1; exact absurd h1.symm hw'
        · intro c hc
          rcases List.mem_cons.1 hc with rfl | hc
          · exact hgt
          · exact lt_trans hgt (hp.1 c hc)
    subst hkk
    have hww : w = w' := by simpa [Memory.read] using he k
    subst hww
    congr 1
    refine memory_ext ⟨hp.2, fun c hc => h.2 c (by simp [hc])⟩
      ⟨hp'.2, fun c hc => h'.2 c (by simp [hc])⟩ (fun a => ?_)
    by_cases hak : k < a
    · simpa [read_cons_of_lt hak] using he a
    · rw [read_of_lt_all (fun c hc => by have := hp.1 c hc; simp only at this; omega),
        read_of_lt_all (fun c hc => by have := hp'.1 c hc; simp only at this; omega)]

/-- Writes to different addresses commute. -/
theorem write_comm {m : Memory} {a b : Nat} {v w : Byte} (hm : m.wf) (ha : a < addressLimit)
    (hb : b < addressLimit) (hab : a ≠ b) :
    (m.write a v).write b w = (m.write b w).write a v := by
  refine memory_ext (write_wf (write_wf hm ha) hb) (write_wf (write_wf hm hb) ha) (fun c => ?_)
  rw [read_write (write_wf hm ha), read_write hm, read_write (write_wf hm hb), read_write hm]
  split <;> split <;> simp_all

/-! ### Runs of bytes -/

@[simp] theorem length_bytes (m : Memory) (a n : Nat) : (m.bytes a n).length = n := by
  simp [Memory.bytes]

theorem getElem_bytes {m : Memory} {a n i : Nat} (h : i < (m.bytes a n).length) :
    (m.bytes a n)[i] = m.read (a + i) := by simp [Memory.bytes]

@[simp] theorem bytes_zero (m : Memory) (a : Nat) : m.bytes a 0 = [] := rfl

theorem bytes_succ (m : Memory) (a n : Nat) :
    m.bytes a (n + 1) = m.read a :: m.bytes (a + 1) n := by
  simp [Memory.bytes, List.range_succ_eq_map, Nat.add_comm, Nat.add_left_comm]

theorem bytes_append (m : Memory) (a n k : Nat) :
    m.bytes a (n + k) = m.bytes a n ++ m.bytes (a + n) k := by
  induction n generalizing a with
  | zero => simp
  | succ n ih => rw [Nat.succ_add, bytes_succ, bytes_succ, ih, List.cons_append]; congr 3; omega

theorem bytes_congr {m m' : Memory} {a n : Nat} (h : ∀ j < n, m.read (a + j) = m'.read (a + j)) :
    m.bytes a n = m'.bytes a n := by
  simp only [Memory.bytes]
  exact List.map_congr_left (fun j hj => h j (List.mem_range.1 hj))

end Sys2Proof.Machine
end

