-- ==== Sys2Proof/Laws/State.lean ====
section
/-! SUPPORT. One lemma per field per update of State, and the laws of session reads and writes. -/

namespace Sys2Proof.Machine

variable (s : State) (h k a : Nat) (x y : Session) (v : Byte) (r : Result)

@[simp] theorem setSession_params : (s.setSession h x).params = s.params := rfl
@[simp] theorem setSession_mem : (s.setSession h x).mem = s.mem := rfl
@[simp] theorem setSession_pending : (s.setSession h x).pending = s.pending := rfl
@[simp] theorem setSession_results : (s.setSession h x).results = s.results := rfl
@[simp] theorem setSession_sess : (s.setSession h x).sess = s.sess.set h x := rfl
@[simp] theorem poke_params : (s.poke a v).params = s.params := rfl
@[simp] theorem poke_sess : (s.poke a v).sess = s.sess := rfl
@[simp] theorem poke_pending : (s.poke a v).pending = s.pending := rfl
@[simp] theorem poke_results : (s.poke a v).results = s.results := rfl
@[simp] theorem poke_mem : (s.poke a v).mem = s.mem.write a v := rfl
@[simp] theorem respond_params : (s.respond r).params = s.params := rfl
@[simp] theorem respond_sess : (s.respond r).sess = s.sess := rfl
@[simp] theorem respond_mem : (s.respond r).mem = s.mem := rfl
@[simp] theorem respond_pending : (s.respond r).pending = s.pending := rfl
@[simp] theorem respond_results : (s.respond r).results = s.results ++ [r] := rfl
@[simp] theorem poke_session : (s.poke a v).session h = s.session h := rfl
@[simp] theorem respond_session : (s.respond r).session h = s.session h := rfl
@[simp] theorem poke_nsess : (s.poke a v).nsess = s.nsess := rfl
@[simp] theorem respond_nsess : (s.respond r).nsess = s.nsess := rfl
@[simp] theorem setSession_nsess : (s.setSession h x).nsess = s.nsess := by
  simp [State.nsess, State.setSession]

@[simp] theorem setSession_setSession :
    (s.setSession h x).setSession h y = s.setSession h y := by
  simp [State.setSession]

@[simp] theorem setSession_self : s.setSession h (s.session h) = s := by
  simp only [State.setSession, State.session]
  congr 1
  apply List.ext_getElem (by simp)
  intro i _ hi
  rw [List.getElem_set]
  split
  · subst_vars; simp [List.getElem?_eq_getElem hi]
  · rfl

@[simp] theorem setSession_allows (kind : AccessKind) :
    (s.setSession h x).allows a kind = s.allows a kind := rfl
@[simp] theorem poke_allows (b : Nat) (kind : AccessKind) :
    (s.poke b v).allows a kind = s.allows a kind := rfl
@[simp] theorem respond_allows (kind : AccessKind) :
    (s.respond r).allows a kind = s.allows a kind := rfl

variable {s h k a v}

/-- An allowed address is inside the address space (R32, R40). -/
theorem allows_lt {kind : AccessKind} (ha : s.allows a kind = true) : a < addressLimit := by
  simp only [State.allows, Bool.and_eq_true, decide_eq_true_eq] at ha; exact ha.1

/-- What the check allows depends on the parameters alone. -/
theorem allows_congr {t : State} (hp : t.params = s.params) (kind : AccessKind) :
    t.allows a kind = s.allows a kind := by simp [State.allows, hp]

theorem session_setSession_same (hh : h < s.nsess) : (s.setSession h x).session h = x := by
  have hh' : h < s.sess.length := hh
  simp [State.session, State.setSession, hh']

theorem session_setSession_other (hk : k ≠ h) : (s.setSession h x).session k = s.session k := by
  simp [State.session, State.setSession, List.getD_eq_getElem?_getD, hk.symm]

theorem setSession_comm (hk : k ≠ h) :
    (s.setSession h x).setSession k y = (s.setSession k y).setSession h x := by
  simp [State.setSession, List.set_comm _ _ hk]

theorem setSession_poke : (s.poke a v).setSession h x = (s.setSession h x).poke a v := rfl

theorem session_mem (hh : h < s.nsess) : s.session h ∈ s.sess := by
  have hh' : h < s.sess.length := hh
  simp [State.session, hh']

/-- A session of the updated state is the new one or an old one. -/
theorem mem_setSession {z : Session} (hz : z ∈ (s.setSession h x).sess) : z = x ∨ z ∈ s.sess :=
  (List.mem_or_eq_of_mem_set hz).symm

/-! ### Checked accesses -/

theorem memRead_allowed (ha : s.allows a .R = true) : memRead a s = .done (s.mem.read a) s := by
  simp [memRead, ha]

theorem memRead_refused (ha : s.allows a .R = false) : memRead a s = .memFault a s := by
  simp [memRead, ha]

theorem memWrite_allowed (ha : s.allows a .W = true) : memWrite a v s = .done () (s.poke a v) := by
  simp [memWrite, ha]

theorem memWrite_refused (ha : s.allows a .W = false) : memWrite a v s = .memFault a s := by
  simp [memWrite, ha]

/-! ### Operands -/

theorem validSession_eq_some_iff {hd : Handle} :
    validSession hd s = some k ↔ ∃ i : Word, hd = .session i ∧ i.toNat = k ∧ k < s.nsess := by
  cases hd with
  | null => simp [validSession]
  | session i =>
    simp only [validSession, Handle.session.injEq, exists_eq_left']
    split
    · simp only [Option.some.injEq]; constructor
      · rintro rfl; exact ⟨rfl, ‹_›⟩
      · rintro ⟨rfl, -⟩; rfl
    · simp only [reduceCtorEq, false_iff]; rintro ⟨rfl, hk⟩; contradiction

theorem validSession_lt {hd : Handle} (hv : validSession hd s = some k) : k < s.nsess := by
  obtain ⟨_, _, _, hk⟩ := validSession_eq_some_iff.1 hv; exact hk

/-- A handle's validity depends on `NSESS` alone. -/
theorem validSession_congr {hd : Handle} {t : State} (hn : t.nsess = s.nsess) :
    validSession hd t = validSession hd s := by
  cases hd <;> simp [validSession, hn]

theorem boundSession_eq_some_iff {hd : Handle} :
    boundSession hd s = some k ↔ s.bindsSession hd k := by
  unfold boundSession State.bindsSession
  cases validSession hd s with
  | none => simp
  | some j =>
    by_cases hb : (s.session j).bound = true
    · simp only [hb, if_true, Option.some.injEq]
      constructor
      · rintro rfl; exact ⟨rfl, hb⟩
      · exact And.left
    · simp only [hb, if_false, Option.some.injEq, false_iff, reduceCtorEq, Bool.false_eq_true]
      rintro ⟨rfl, hb'⟩; exact hb hb'

theorem boundSession_lt {hd : Handle} (hb : boundSession hd s = some k) : k < s.nsess :=
  validSession_lt (boundSession_eq_some_iff.1 hb).1

/-! ### The ends of a command -/

theorem finish_eq_next_iff {e : Attempt Result} {t : State} :
    finish e = .next t ↔ ∃ r u, e = .done r u ∧ t = u.respond r := by
  cases e <;> simp [finish, returns, eq_comm]

theorem finish_eq_fault_iff {e : Attempt Result} {n : Nat} {l : State} :
    finish e = .fault (.memFault n l) ↔ e = .memFault n l := by
  cases e <;> simp [finish, returns]

theorem finish_ne_refused {e : Attempt Result} {q : Refusal} : finish e ≠ .refused q := by
  cases e <;> simp [finish, returns]

end Sys2Proof.Machine
end

