-- ==== Sys2Proof/Laws/Decoder.lean ====
section
/-! SUPPORT. What the per-byte transition function and the loops over it can do, said once. -/

namespace Sys2Proof.Machine

variable {m : Markers} {x : Session} {b v : Byte} {k a n i : Nat} {s t l : State}

/-! ### The transition function -/

/-- Storing a payload byte stores at the write index inside the capacity, or overflows. -/
theorem storePayload_cases (x : Session) (v : Byte) :
    (x.widx.toNat < x.cap.toNat ∧
      storePayload x v = ⟨{ x with widx := x.widx + 1, state := .ACTIVE },
        some (x.byteAddress x.widx.toNat, v), .CONTINUE, 0⟩) ∨
    (x.cap.toNat ≤ x.widx.toNat ∧ storePayload x v = Transition.aborting x .OVERFLOW) := by
  unfold storePayload
  split
  · exact .inl ⟨‹_›, rfl⟩
  · exact .inr ⟨by omega, rfl⟩

/-- Everything one byte can do: leave the fields but `state` and `widx` alone silently, complete a
frame, store a payload byte, or abort (R79 to R91). -/
theorem transition_cases (m : Markers) (x : Session) (b : Byte) :
    (transition m x b = Transition.quiet x) ∨
    (x.state = .IDLE ∧ b = m.END ∧
      transition m x b = Transition.quiet { x with state := .ACTIVE, widx := 0 }) ∨
    (x.state = .ACTIVE ∧ b ≠ m.END ∧ b = m.ESC ∧
      transition m x b = Transition.quiet { x with state := .ESCAPED }) ∨
    (x.state = .ACTIVE ∧ b = m.END ∧ x.widx ≠ 0 ∧
      transition m x b = ⟨{ x with frame_len := x.widx, widx := 0 }, none, .COMPLETE, x.widx⟩) ∨
    (∃ v, x.state ≠ .IDLE ∧ x.widx.toNat < x.cap.toNat ∧
      transition m x b = ⟨{ x with widx := x.widx + 1, state := .ACTIVE },
        some (x.byteAddress x.widx.toNat, v), .CONTINUE, 0⟩) ∨
    (x.state ≠ .IDLE ∧ x.cap.toNat ≤ x.widx.toNat ∧
      transition m x b = Transition.aborting x .OVERFLOW) ∨
    (x.state = .ESCAPED ∧ b ≠ m.ESC_END ∧ b ≠ m.ESC_ESC ∧
      transition m x b = Transition.aborting x .ERROR) := by
  cases hs : x.state with
  | IDLE =>
    by_cases hb : b = m.END
    · simp [transition, stepIdle, hs, hb]
    · exact .inl (by simp [transition, stepIdle, hs, hb])
  | ACTIVE =>
    by_cases hb : b = m.END
    · by_cases hw : x.widx = 0
      · exact .inl (by simp [transition, stepActive, stepFrameEnd, hs, hb, hw])
      · right; right; right; left
        refine ⟨rfl, hb, hw, ?_⟩
        simp only [transition, stepActive, stepFrameEnd, hs, hb, hw, if_true, if_false]
    · by_cases he : b = m.ESC
      · right; right; left
        subst he
        exact ⟨rfl, hb, rfl, by simp [transition, stepActive, hs, hb]⟩
      · have ht : transition m x b = storePayload x b := by
          simp [transition, stepActive, hs, hb, he]
        rw [ht]
        rcases storePayload_cases x b with ⟨hw, h⟩ | ⟨hw, h⟩
        · right; right; right; right; left; exact ⟨b, by simp, hw, h⟩
        · right; right; right; right; right; left; exact ⟨by simp, hw, h⟩
  | ESCAPED =>
    have ht : transition m x b = stepEscaped m x b := by simp [transition, hs]
    rw [ht]
    unfold stepEscaped unescape
    by_cases h1 : b = m.ESC_END
    · simp only [h1, if_true]
      rcases storePayload_cases x m.END with ⟨hw, h⟩ | ⟨hw, h⟩
      · right; right; right; right; left; exact ⟨_, by simp, hw, h⟩
      · right; right; right; right; right; left; exact ⟨by simp, hw, h⟩
    · by_cases h2 : b = m.ESC_ESC
      · simp only [h2, if_true]
        rw [h2] at h1
        rw [if_neg h1]
        rcases storePayload_cases x m.ESC with ⟨hw, h⟩ | ⟨hw, h⟩
        · right; right; right; right; left; exact ⟨_, by simp, hw, h⟩
        · right; right; right; right; right; left; exact ⟨by simp, hw, h⟩
      · simp only [if_neg h1, if_neg h2]
        right; right; right; right; right; right; exact ⟨trivial, h1, h2, trivial⟩

/-- A byte never changes the binding (R20, R21). -/
theorem transition_binding (m : Markers) (x : Session) (b : Byte) :
    (transition m x b).after.bound = x.bound ∧ (transition m x b).after.out_base = x.out_base ∧
      (transition m x b).after.cap = x.cap := by
  rcases transition_cases m x b with h | ⟨-, -, h⟩ | ⟨-, -, -, h⟩ | ⟨-, -, -, h⟩ | ⟨w, -, -, h⟩ |
    ⟨-, -, h⟩ | ⟨-, -, -, h⟩ <;> rw [h] <;> exact ⟨rfl, rfl, rfl⟩

/-- A byte stores at the write index, below the capacity, and only while it returns CONTINUE (R42,
R43). -/
theorem transition_store (h : (transition m x b).store = some (a, v)) :
    a = x.byteAddress x.widx.toNat ∧ x.widx.toNat < x.cap.toNat ∧
      (transition m x b).outcome = .CONTINUE := by
  rcases transition_cases m x b with e | ⟨-, -, e⟩ | ⟨-, -, -, e⟩ | ⟨-, -, -, e⟩ | ⟨w, -, hw, e⟩ |
    ⟨-, -, e⟩ | ⟨-, -, -, e⟩ <;> rw [e] at h ⊢ <;>
    simp_all [Transition.quiet, Transition.aborting]

/-- The session stays as the rules keep it (R23). -/
theorem transition_kept (hb : x.bound = true) (hx : x.kept) : (transition m x b).after.kept := by
  obtain ⟨h1, h2, h3, -⟩ := hx
  have hc := x.cap.isLt
  rcases transition_cases m x b with e | ⟨-, -, e⟩ | ⟨-, -, -, e⟩ | ⟨hs, -, -, e⟩ | ⟨w, -, hw, e⟩ |
    ⟨-, -, e⟩ | ⟨-, -, -, e⟩ <;> rw [e] <;>
    simp_all [Session.kept, Transition.quiet, Transition.aborting, Session.abort]
  omega

/-- A byte never returns EMPTY (R68), and its length is 0 unless it completes a frame (R79, R83). -/
theorem transition_outcome (m : Markers) (x : Session) (b : Byte) :
    (transition m x b).outcome ≠ .EMPTY ∧
      ((transition m x b).outcome = .COMPLETE →
        (transition m x b).length = x.widx ∧ x.widx ≠ 0 ∧ x.state = .ACTIVE ∧
        (transition m x b).after = { x with frame_len := x.widx, widx := 0 }) ∧
      ((transition m x b).outcome ≠ .COMPLETE →
        (transition m x b).length = 0 ∧ (transition m x b).after.frame_len = x.frame_len) := by
  rcases transition_cases m x b with e | ⟨-, -, e⟩ | ⟨-, -, -, e⟩ | ⟨hs, -, hw, e⟩ | ⟨w, -, hw, e⟩ |
    ⟨-, -, e⟩ | ⟨-, -, -, e⟩ <;> rw [e] <;>
    simp_all [Transition.quiet, Transition.aborting, Session.abort]

/-! ### Step on the machine -/

/-- `byteStep` returns exactly when its store, if any, passes the check (R40). -/
theorem byteStep_eq_done_iff {ol : OutcomeCode × Word} :
    byteStep k b s = .done ol t ↔
      ol = ((transition s.params.markers (s.session k) b).outcome,
        (transition s.params.markers (s.session k) b).length) ∧
      (((transition s.params.markers (s.session k) b).store = none ∧
          t = s.setSession k (transition s.params.markers (s.session k) b).after) ∨
        ∃ a v, (transition s.params.markers (s.session k) b).store = some (a, v) ∧
          s.allows a .W = true ∧
          t = (s.poke a v).setSession k (transition s.params.markers (s.session k) b).after) := by
  unfold byteStep
  generalize transition s.params.markers (s.session k) b = tr
  obtain ⟨after, store, o, len⟩ := tr
  cases store with
  | none =>
    simp only [Attempt.done.injEq, true_and, reduceCtorEq, false_and, exists_false, or_false]
    exact ⟨fun ⟨h, h'⟩ => ⟨h.symm, h'.symm⟩, fun ⟨h, h'⟩ => ⟨h.symm, h'.symm⟩⟩
  | some av =>
    obtain ⟨a', v'⟩ := av
    cases ha : s.allows a' .W with
    | true =>
      simp only [memWrite_allowed ha, Attempt.done.injEq, reduceCtorEq, false_and, false_or,
        Option.some.injEq, Prod.mk.injEq]
      constructor
      · rintro ⟨rfl, rfl⟩; exact ⟨rfl, a', v', ⟨rfl, rfl⟩, ha, rfl⟩
      · rintro ⟨rfl, _, _, ⟨rfl, rfl⟩, -, rfl⟩; exact ⟨rfl, rfl⟩
    | false =>
      simp only [memWrite_refused ha, reduceCtorEq, false_and, false_or, Option.some.injEq,
        Prod.mk.injEq, false_iff]
      rintro ⟨-, _, _, ⟨rfl, rfl⟩, ha', -⟩; simp [ha] at ha'

/-- `byteStep` faults exactly when its store fails the check, and changes nothing (R40). -/
theorem byteStep_eq_fault_iff :
    byteStep k b s = .memFault a l ↔
      l = s ∧ ∃ v, (transition s.params.markers (s.session k) b).store = some (a, v) ∧
        s.allows a .W = false := by
  unfold byteStep
  generalize transition s.params.markers (s.session k) b = tr
  obtain ⟨after, store, o, len⟩ := tr
  cases store with
  | none => simp
  | some av =>
    obtain ⟨a', v'⟩ := av
    cases ha : s.allows a' .W with
    | true =>
      simp only [memWrite_allowed ha, reduceCtorEq, Option.some.injEq, Prod.mk.injEq, false_iff]
      rintro ⟨-, _, ⟨rfl, -⟩, ha'⟩; simp [ha] at ha'
    | false =>
      simp only [memWrite_refused ha, Attempt.memFault.injEq, Option.some.injEq, Prod.mk.injEq]
      constructor
      · rintro ⟨rfl, rfl⟩; exact ⟨rfl, v', ⟨rfl, rfl⟩, ha⟩
      · rintro ⟨rfl, _, ⟨rfl, -⟩, -⟩; exact ⟨rfl, rfl⟩

/-- What one byte leaves alone: everything but session `k` and the memory. -/
theorem byteStep_fixes {ol : OutcomeCode × Word} (h : byteStep k b s = .done ol t) :
    t.params = s.params ∧ t.pending = s.pending ∧ t.results = s.results ∧ t.nsess = s.nsess ∧
      ∀ j, j ≠ k → t.session j = s.session j := by
  obtain ⟨-, ⟨-, rfl⟩ | ⟨a, v, -, -, rfl⟩⟩ := byteStep_eq_done_iff.1 h
  · exact ⟨rfl, rfl, rfl, by simp, fun j hj => session_setSession_other _ hj⟩
  · exact ⟨rfl, rfl, rfl, by simp, fun j hj => session_setSession_other _ hj⟩

/-- The session after one byte. -/
theorem byteStep_session {ol : OutcomeCode × Word} (hk : k < s.nsess)
    (h : byteStep k b s = .done ol t) :
    t.session k = (transition s.params.markers (s.session k) b).after := by
  obtain ⟨-, ⟨-, rfl⟩ | ⟨a, v, -, -, rfl⟩⟩ := byteStep_eq_done_iff.1 h
  · exact session_setSession_same _ hk
  · exact session_setSession_same (s := s.poke a v) _ hk

/-! ### The loop of DECN -/

theorem consume_unreadable (h : s.allows (a + i) .R = false) :
    consume k a (n + 1) i s = .memFault (a + i) s := by
  simp only [consume, memRead_refused h]

theorem consume_fault {y : Nat} (h : s.allows (a + i) .R = true)
    (hb : byteStep k (s.mem.read (a + i)) s = .memFault y l) :
    consume k a (n + 1) i s = .memFault y l := by
  simp only [consume, memRead_allowed h, hb]

theorem consume_continue {len : Word} (h : s.allows (a + i) .R = true)
    (hb : byteStep k (s.mem.read (a + i)) s = .done (.CONTINUE, len) t) :
    consume k a (n + 1) i s = consume k a n (i + 1) t := by
  simp only [consume, memRead_allowed h, hb, if_true]

theorem consume_stop {o : OutcomeCode} {len : Word} (h : s.allows (a + i) .R = true)
    (hb : byteStep k (s.mem.read (a + i)) s = .done (o, len) t) (ho : o ≠ .CONTINUE) :
    consume k a (n + 1) i s =
      .done { outcome := o, length := len, consumed := BitVec.ofNat 32 (i + 1) } t := by
  simp only [consume, memRead_allowed h, hb, if_neg ho]

/-- The four things the next byte of DECN can do. -/
theorem consume_succ_cases (k a n i : Nat) (s : State) :
    (s.allows (a + i) .R = false ∧ consume k a (n + 1) i s = .memFault (a + i) s) ∨
    (s.allows (a + i) .R = true ∧ ∃ y, byteStep k (s.mem.read (a + i)) s = .memFault y s ∧
      consume k a (n + 1) i s = .memFault y s) ∨
    (s.allows (a + i) .R = true ∧ ∃ len t,
      byteStep k (s.mem.read (a + i)) s = .done (.CONTINUE, len) t ∧
      consume k a (n + 1) i s = consume k a n (i + 1) t) ∨
    (s.allows (a + i) .R = true ∧ ∃ o len t,
      byteStep k (s.mem.read (a + i)) s = .done (o, len) t ∧ o ≠ .CONTINUE ∧
      consume k a (n + 1) i s =
        .done { outcome := o, length := len, consumed := BitVec.ofNat 32 (i + 1) } t) := by
  cases ha : s.allows (a + i) .R with
  | false => exact .inl ⟨rfl, consume_unreadable ha⟩
  | true =>
    right
    cases hb : byteStep k (s.mem.read (a + i)) s with
    | memFault y l =>
      obtain ⟨rfl, -⟩ := byteStep_eq_fault_iff.1 hb
      exact .inl ⟨rfl, y, rfl, consume_fault ha hb⟩
    | done ol t =>
      obtain ⟨o, len⟩ := ol
      by_cases ho : o = .CONTINUE
      · subst ho; exact .inr (.inl ⟨rfl, len, t, rfl, consume_continue ha hb⟩)
      · exact .inr (.inr ⟨rfl, o, len, t, rfl, ho, consume_stop ha hb ho⟩)

/-- Whatever each byte keeps, the whole loop keeps, and a fault leaves a kept state (R40, R98). -/
theorem consume_keeps {motive : State → Prop}
    (hstep : ∀ b u u' ol, motive u → byteStep k b u = .done ol u' → motive u')
    (hs : motive s) :
    (∀ r t, consume k a n i s = .done r t → motive t) ∧
      (∀ x l, consume k a n i s = .memFault x l → motive l) := by
  induction n generalizing i s with
  | zero =>
    constructor
    · intro r t h; simp only [consume, Attempt.done.injEq] at h; exact h.2 ▸ hs
    · intro x l h; simp [consume] at h
  | succ n ih =>
    rcases consume_succ_cases k a n i s with ⟨-, h⟩ | ⟨-, y, -, h⟩ | ⟨-, len, u, hb, h⟩ |
      ⟨-, o, len, u, hb, -, h⟩ <;> rw [h]
    · exact ⟨by simp, fun x l h => by simp only [Attempt.memFault.injEq] at h; exact h.2 ▸ hs⟩
    · exact ⟨by simp, fun x l h => by simp only [Attempt.memFault.injEq] at h; exact h.2 ▸ hs⟩
    · exact ih (hstep _ _ _ _ hs hb)
    · refine ⟨fun r t h => ?_, by simp⟩
      simp only [Attempt.done.injEq] at h
      exact h.2 ▸ hstep _ _ _ _ hs hb

/-- The shape of the record DECN returns: all `n` bytes with CONTINUE, or an earlier stop that counts
the stopping byte (R95, R97). -/
theorem consume_result {r : Result} (h : consume k a n i s = .done r t) :
    (r = { outcome := .CONTINUE, consumed := BitVec.ofNat 32 (i + n) }) ∨
      ∃ j < n, ∃ o len, o ≠ .CONTINUE ∧
        r = { outcome := o, length := len, consumed := BitVec.ofNat 32 (i + j + 1) } := by
  induction n generalizing i s with
  | zero => simp only [consume, Attempt.done.injEq] at h; exact .inl h.1.symm
  | succ n ih =>
    rcases consume_succ_cases k a n i s with ⟨-, e⟩ | ⟨-, y, -, e⟩ | ⟨-, len, u, -, e⟩ |
      ⟨-, o, len, u, -, ho, e⟩ <;> rw [e] at h
    · simp at h
    · simp at h
    · rcases ih h with rfl | ⟨j, hj, o, len, ho, rfl⟩
      · left; congr 2; omega
      · right; exact ⟨j + 1, by omega, o, len, ho, by congr 2; omega⟩
    · simp only [Attempt.done.injEq] at h
      exact .inr ⟨0, by omega, o, len, ho, h.1.symm⟩

end Sys2Proof.Machine
end

