-- ==== Sys2Proof/Laws/Descriptor.lean ====
section
/-! SUPPORT. The fields of a descriptor read back as they were written (30_encoding.md R63). -/

namespace Sys2Proof

variable (op : BitVec 8) (hp ap bp cp : BitVec 1) (byte : Byte) (hidx a n b c : Word)

@[simp] theorem make_op :
    (Descriptor.make op hp ap bp cp byte hidx a n b c).op = op := by
  apply BitVec.eq_of_getLsbD_eq
  intro i hi
  simp only [Descriptor.op, Descriptor.field, Descriptor.make, BitVec.getLsbD_extractLsb',
    BitVec.getLsbD_append, hi, decide_true, Bool.true_and]
  rw [if_pos (by omega)]
  exact congrArg op.getLsbD (by omega)

@[simp] theorem make_hp :
    (Descriptor.make op hp ap bp cp byte hidx a n b c).hp = hp := by
  apply BitVec.eq_of_getLsbD_eq
  intro i hi
  simp only [Descriptor.hp, Descriptor.field, Descriptor.make, BitVec.getLsbD_extractLsb',
    BitVec.getLsbD_append, hi, decide_true, Bool.true_and]
  iterate 1 rw [if_neg (by omega)]
  rw [if_pos (by omega)]
  exact congrArg hp.getLsbD (by omega)

@[simp] theorem make_ap :
    (Descriptor.make op hp ap bp cp byte hidx a n b c).ap = ap := by
  apply BitVec.eq_of_getLsbD_eq
  intro i hi
  simp only [Descriptor.ap, Descriptor.field, Descriptor.make, BitVec.getLsbD_extractLsb',
    BitVec.getLsbD_append, hi, decide_true, Bool.true_and]
  iterate 2 rw [if_neg (by omega)]
  rw [if_pos (by omega)]
  exact congrArg ap.getLsbD (by omega)

@[simp] theorem make_bp :
    (Descriptor.make op hp ap bp cp byte hidx a n b c).bp = bp := by
  apply BitVec.eq_of_getLsbD_eq
  intro i hi
  simp only [Descriptor.bp, Descriptor.field, Descriptor.make, BitVec.getLsbD_extractLsb',
    BitVec.getLsbD_append, hi, decide_true, Bool.true_and]
  iterate 3 rw [if_neg (by omega)]
  rw [if_pos (by omega)]
  exact congrArg bp.getLsbD (by omega)

@[simp] theorem make_cp :
    (Descriptor.make op hp ap bp cp byte hidx a n b c).cp = cp := by
  apply BitVec.eq_of_getLsbD_eq
  intro i hi
  simp only [Descriptor.cp, Descriptor.field, Descriptor.make, BitVec.getLsbD_extractLsb',
    BitVec.getLsbD_append, hi, decide_true, Bool.true_and]
  iterate 4 rw [if_neg (by omega)]
  rw [if_pos (by omega)]
  exact congrArg cp.getLsbD (by omega)

@[simp] theorem make_reserved_12 :
    (Descriptor.make op hp ap bp cp byte hidx a n b c).field 12 4 = 0 := by
  apply BitVec.eq_of_getLsbD_eq
  intro i hi
  simp only [Descriptor.field, Descriptor.make, BitVec.getLsbD_extractLsb',
    BitVec.getLsbD_append, hi, decide_true, Bool.true_and]
  iterate 5 rw [if_neg (by omega)]
  rw [if_pos (by omega)]
  simp

@[simp] theorem make_byte :
    (Descriptor.make op hp ap bp cp byte hidx a n b c).byte = byte := by
  apply BitVec.eq_of_getLsbD_eq
  intro i hi
  simp only [Descriptor.byte, Descriptor.field, Descriptor.make, BitVec.getLsbD_extractLsb',
    BitVec.getLsbD_append, hi, decide_true, Bool.true_and]
  iterate 6 rw [if_neg (by omega)]
  rw [if_pos (by omega)]
  exact congrArg byte.getLsbD (by omega)

@[simp] theorem make_reserved_24 :
    (Descriptor.make op hp ap bp cp byte hidx a n b c).field 24 8 = 0 := by
  apply BitVec.eq_of_getLsbD_eq
  intro i hi
  simp only [Descriptor.field, Descriptor.make, BitVec.getLsbD_extractLsb',
    BitVec.getLsbD_append, hi, decide_true, Bool.true_and]
  iterate 7 rw [if_neg (by omega)]
  rw [if_pos (by omega)]
  simp

@[simp] theorem make_hidx :
    (Descriptor.make op hp ap bp cp byte hidx a n b c).hidx = hidx := by
  apply BitVec.eq_of_getLsbD_eq
  intro i hi
  simp only [Descriptor.hidx, Descriptor.field, Descriptor.make, BitVec.getLsbD_extractLsb',
    BitVec.getLsbD_append, hi, decide_true, Bool.true_and]
  iterate 8 rw [if_neg (by omega)]
  rw [if_pos (by omega)]
  exact congrArg hidx.getLsbD (by omega)

@[simp] theorem make_a :
    (Descriptor.make op hp ap bp cp byte hidx a n b c).a = a := by
  apply BitVec.eq_of_getLsbD_eq
  intro i hi
  simp only [Descriptor.a, Descriptor.field, Descriptor.make, BitVec.getLsbD_extractLsb',
    BitVec.getLsbD_append, hi, decide_true, Bool.true_and]
  iterate 9 rw [if_neg (by omega)]
  rw [if_pos (by omega)]
  exact congrArg a.getLsbD (by omega)

@[simp] theorem make_n :
    (Descriptor.make op hp ap bp cp byte hidx a n b c).n = n := by
  apply BitVec.eq_of_getLsbD_eq
  intro i hi
  simp only [Descriptor.n, Descriptor.field, Descriptor.make, BitVec.getLsbD_extractLsb',
    BitVec.getLsbD_append, hi, decide_true, Bool.true_and]
  iterate 10 rw [if_neg (by omega)]
  rw [if_pos (by omega)]
  exact congrArg n.getLsbD (by omega)

@[simp] theorem make_b :
    (Descriptor.make op hp ap bp cp byte hidx a n b c).b = b := by
  apply BitVec.eq_of_getLsbD_eq
  intro i hi
  simp only [Descriptor.b, Descriptor.field, Descriptor.make, BitVec.getLsbD_extractLsb',
    BitVec.getLsbD_append, hi, decide_true, Bool.true_and]
  iterate 11 rw [if_neg (by omega)]
  rw [if_pos (by omega)]
  exact congrArg b.getLsbD (by omega)

@[simp] theorem make_c :
    (Descriptor.make op hp ap bp cp byte hidx a n b c).c = c := by
  apply BitVec.eq_of_getLsbD_eq
  intro i hi
  simp only [Descriptor.c, Descriptor.field, Descriptor.make, BitVec.getLsbD_extractLsb',
    BitVec.getLsbD_append, hi, decide_true, Bool.true_and]
  iterate 12 rw [if_neg (by omega)]
  exact congrArg c.getLsbD (by omega)

theorem piece_eq {p : Prop} [Decidable p] {x y z : Bool} (hx : p → x = z) (hy : ¬ p → y = z) :
    (if p then x else y) = z := by
  split
  · exact hx ‹_›
  · exact hy ‹_›

/-- A descriptor whose reserved bits are 0 is made of its fields. -/
theorem make_fields (d : Descriptor) (h4 : d.field 12 4 = 0) (h8 : d.field 24 8 = 0) :
    Descriptor.make d.op d.hp d.ap d.bp d.cp d.byte d.hidx d.a d.n d.b d.c = d := by
  unfold Descriptor.make
  rw [← h4, ← h8]
  apply BitVec.eq_of_getLsbD_eq
  intro i hi
  simp only [Descriptor.op, Descriptor.hp, Descriptor.ap, Descriptor.bp, Descriptor.cp,
    Descriptor.byte, Descriptor.hidx, Descriptor.a, Descriptor.n, Descriptor.b, Descriptor.c,
    Descriptor.field, BitVec.getLsbD_append, BitVec.getLsbD_extractLsb']
  iterate 12
    refine piece_eq (fun h => ?_) (fun h => ?_)
    · rw [decide_eq_true h, Bool.true_and]
      exact congrArg d.getLsbD (by omega)
  rw [decide_eq_true (by omega), Bool.true_and]
  exact congrArg d.getLsbD (by omega)

end Sys2Proof
end

