-- ==== Sys2Proof/Laws/Frames.lean ====
section
/-! SUPPORT. What a command leaves unchanged, proved once for the pieces every command is made of. -/

namespace Sys2Proof.Machine

variable {k o cap : Nat} {s t u l : State} {b : Byte}

/-! ### Decoding -/

/-- All that decoding on session `k` may change from `s` to `u`: the memory inside the session's
output buffer, and the fields `state`, `widx` and `frame_len` of session `k` (R25, R42, R43). -/
structure DecodesFrom (k : Nat) (s u : State) : Prop where
  params : u.params = s.params
  pending : u.pending = s.pending
  results : u.results = s.results
  nsess : u.nsess = s.nsess
  others : ∀ j, j ≠ k → u.session j = s.session j
  bound : (u.session k).bound = (s.session k).bound
  out_base : (u.session k).out_base = (s.session k).out_base
  cap : (u.session k).cap = (s.session k).cap
  wf : s.mem.wf → u.mem.wf
  mem : s.mem.wf →
    s.mem.sameOutside u.mem (s.session k).out_base.toNat (s.session k).cap.toNat

theorem DecodesFrom.refl (k : Nat) (s : State) : DecodesFrom k s s :=
  ⟨rfl, rfl, rfl, rfl, fun _ _ => rfl, rfl, rfl, rfl, id, fun _ _ _ => rfl⟩

theorem DecodesFrom.trans (h : DecodesFrom k s t) (h' : DecodesFrom k t u) : DecodesFrom k s u where
  params := h'.params.trans h.params
  pending := h'.pending.trans h.pending
  results := h'.results.trans h.results
  nsess := h'.nsess.trans h.nsess
  others j hj := (h'.others j hj).trans (h.others j hj)
  bound := h'.bound.trans h.bound
  out_base := h'.out_base.trans h.out_base
  cap := h'.cap.trans h.cap
  wf hm := h'.wf (h.wf hm)
  mem hm x hx := by
    rw [h'.mem (h.wf hm) x (by rw [h.out_base, h.cap]; exact hx), h.mem hm x hx]

/-- One byte is one such change. -/
theorem byteStep_decodes {ol : OutcomeCode × Word} (hk : k < s.nsess)
    (h : byteStep k b s = .done ol u) : DecodesFrom k s u := by
  obtain ⟨h1, h2, h3, h4, h5⟩ := byteStep_fixes h
  obtain ⟨hb, ho, hc⟩ := transition_binding s.params.markers (s.session k) b
  rw [← byteStep_session hk h] at hb ho hc
  have hmem : s.mem.wf → u.mem.wf ∧
      s.mem.sameOutside u.mem (s.session k).out_base.toNat (s.session k).cap.toNat := by
    intro hm
    obtain ⟨-, ⟨-, rfl⟩ | ⟨a, v, hst, ha, rfl⟩⟩ := byteStep_eq_done_iff.1 h
    · exact ⟨hm, fun _ _ => rfl⟩
    · obtain ⟨rfl, hw, -⟩ := transition_store hst
      exact ⟨write_wf hm (allows_lt ha), fun x hx => read_write_other hm (hx _ hw)⟩
  exact ⟨h1, h2, h3, h4, h5, hb, ho, hc, fun hm => (hmem hm).1, fun hm => (hmem hm).2⟩

/-- So is the loop of DECN, and what a `MemFault` in it leaves. -/
theorem consume_decodes {a n i : Nat} (hk : k < s.nsess) :
    (∀ r t, consume k a n i s = .done r t → DecodesFrom k s t) ∧
      (∀ x l, consume k a n i s = .memFault x l → DecodesFrom k s l) :=
  consume_keeps (motive := DecodesFrom k s)
    (fun _ u _ _ hu hb => hu.trans (byteStep_decodes (by rw [hu.nsess]; exact hk) hb))
    (DecodesFrom.refl k s)

/-- So is a single byte of DECB. -/
theorem feedByte_decodes (hk : k < s.nsess) :
    (∀ r t, feedByte k b s = .done r t → DecodesFrom k s t) ∧
      (∀ x l, feedByte k b s = .memFault x l → DecodesFrom k s l) := by
  unfold feedByte
  cases hb : byteStep k b s with
  | memFault x l =>
    obtain ⟨rfl, -⟩ := byteStep_eq_fault_iff.1 hb
    refine ⟨by simp, fun y l h => ?_⟩
    simp only [Attempt.memFault.injEq] at h
    exact h.2 ▸ DecodesFrom.refl k _
  | done ol t =>
    refine ⟨fun r t h => ?_, by simp⟩
    simp only [Attempt.done.injEq] at h
    exact h.2 ▸ byteStep_decodes hk hb

/-- A bound session stays as the rules keep it, through every byte (R23). -/
theorem byteStep_kept {ol : OutcomeCode × Word} (hk : k < s.nsess)
    (hb : (s.session k).bound = true) (hx : (s.session k).kept)
    (h : byteStep k b s = .done ol u) : (u.session k).kept := by
  rw [byteStep_session hk h]; exact transition_kept hb hx

/-! ### Encoding -/

/-- All that ENC may change from `s` to `u`: the memory inside `o .. o + cap` (R26, R43). -/
structure EmitsFrom (o cap : Nat) (s u : State) : Prop where
  params : u.params = s.params
  sess : u.sess = s.sess
  pending : u.pending = s.pending
  results : u.results = s.results
  wf : s.mem.wf → u.mem.wf
  mem : s.mem.wf → s.mem.sameOutside u.mem o cap

theorem EmitsFrom.refl (o cap : Nat) (s : State) : EmitsFrom o cap s s :=
  ⟨rfl, rfl, rfl, rfl, id, fun _ _ _ => rfl⟩

/-- An emission whose state, however it ends, has changed only so, with the cursor inside the
capacity (R108). -/
def Emission.Within (e : Emission) (o cap : Nat) (s : State) : Prop :=
  match e with
  | .going k u => k ≤ cap ∧ EmitsFrom o cap s u
  | .full u => EmitsFrom o cap s u
  | .memFault _ u => EmitsFrom o cap s u

theorem Emission.Within.andThen {e : Emission} {f : Nat → State → Emission}
    (he : e.Within o cap s)
    (hf : ∀ k u, k ≤ cap → EmitsFrom o cap s u → (f k u).Within o cap s) :
    (e.andThen f).Within o cap s := by
  cases e with
  | going k u => exact hf k u he.1 he.2
  | full u => exact he
  | memFault a u => exact he

theorem emit_within {v : Byte} (hk : k ≤ cap) (hu : EmitsFrom o cap s u) :
    (emit o cap v k u).Within o cap s := by
  unfold emit
  split
  · exact hu
  · cases ha : u.allows (o + k) .W with
    | false => rw [memWrite_refused ha]; exact hu
    | true =>
      rw [memWrite_allowed ha]
      refine ⟨by omega, hu.params, hu.sess, hu.pending, hu.results,
        fun hm => write_wf (hu.wf hm) (allows_lt ha), fun hm x hx => ?_⟩
      rw [← hu.mem hm x hx]
      exact read_write_other (hu.wf hm) (hx k (by omega))

theorem emitAll_within {vs : List Byte} (hk : k ≤ cap) (hu : EmitsFrom o cap s u) :
    (emitAll o cap vs k u).Within o cap s := by
  induction vs generalizing k u with
  | nil => exact ⟨hk, hu⟩
  | cons v vs ih => exact (emit_within hk hu).andThen (fun _ _ hk' hu' => ih hk' hu')

theorem emitPayload_within {p n i : Nat} (hk : k ≤ cap) (hu : EmitsFrom o cap s u) :
    (emitPayload p o cap n i k u).Within o cap s := by
  induction n generalizing i k u with
  | zero => exact ⟨hk, hu⟩
  | succ n ih =>
    unfold emitPayload
    cases ha : u.allows (p + i) .R with
    | false => rw [memRead_refused ha]; exact hu
    | true =>
      rw [memRead_allowed ha]
      exact (emitAll_within hk hu).andThen (fun _ _ hk' hu' => ih hk' hu')

/-- ENC writes inside its output buffer only, however it ends (R43). -/
theorem emitFrame_within (p n o cap : Nat) (s : State) :
    (emitFrame p n o cap s).Within o cap s := by
  have h0 := EmitsFrom.refl o cap s
  exact ((emit_within (Nat.zero_le _) h0).andThen fun _ _ hk hu => emitPayload_within hk hu).andThen
    fun _ _ hk hu => emit_within hk hu

end Sys2Proof.Machine
end

