-- ==== Sys2Proof/Laws/Exec.lean ====
section
/-! SUPPORT. Everything a command can do, said once: the statements about all commands are read off
these lemmas, without unfolding a meaning again. -/

namespace Sys2Proof.Machine

variable {k : Nat} {s t l : State}

/-- What the frame of ENC ends in: COMPLETE or OVERFLOW, or a `MemFault`; the state has changed inside
the output buffer only (R111, R114, R43). -/
theorem emitFrame_cases (p n o cap : Nat) (s : State) :
    (∃ k u, emitFrame p n o cap s = .going k u ∧ k ≤ cap ∧ EmitsFrom o cap s u ∧
      (emitFrame p n o cap s).result =
        .done { outcome := .COMPLETE, length := BitVec.ofNat 32 k } u) ∨
    (∃ u, emitFrame p n o cap s = .full u ∧ EmitsFrom o cap s u ∧
      (emitFrame p n o cap s).result = .done { outcome := .OVERFLOW } u) ∨
    (∃ a u, emitFrame p n o cap s = .memFault a u ∧ EmitsFrom o cap s u ∧
      (emitFrame p n o cap s).result = .memFault a u) := by
  have h := emitFrame_within p n o cap s
  cases e : emitFrame p n o cap s with
  | going k u => rw [e] at h; exact .inl ⟨k, u, rfl, h.1, h.2, rfl⟩
  | full u => rw [e] at h; exact .inr (.inl ⟨u, rfl, h, rfl⟩)
  | memFault a u => rw [e] at h; exact .inr (.inr ⟨a, u, rfl, h, rfl⟩)

/-- Everything a command can do: answer ERROR and change nothing, bind a session, read one, decode on
a bound session, or encode (R75, R77, R95, R100, R109). -/
theorem exec_cases (i : Instr) (s : State) :
    exec i s = returns Result.error s ∨
    (∃ k h a n, i = .bind h a n ∧ namedSession i s = some k ∧ k < s.nsess ∧
      exec i s = returns Result.ok (s.setSession k (bindSession a n))) ∨
    (∃ k h, i = .stat h ∧ namedSession i s = some k ∧ k < s.nsess ∧
      exec i s = returns (statResult (s.session k)) s) ∨
    (∃ k h b, i = .decb h b ∧ namedSession i s = some k ∧ k < s.nsess ∧
      (s.session k).bound = true ∧ exec i s = finish (feedByte k b s)) ∨
    (∃ k h a n, i = .decn h (.present a) n ∧ namedSession i s = some k ∧ k < s.nsess ∧
      (s.session k).bound = true ∧ exec i s = finish (consume k a.toNat n.toNat 0 s)) ∨
    (∃ p n o c, i = .enc (.present p) n (.present o) (.value c) ∧
      exec i s = finish (emitFrame p.toNat n.toNat o.toNat c.toNat s).result) := by
  cases i with
  | bind h a n =>
    simp only [exec, execBind, namedSession]
    cases hv : validSession h s with
    | none => exact .inl rfl
    | some k => exact .inr (.inl ⟨k, h, a, n, rfl, rfl, validSession_lt hv, rfl⟩)
  | stat h =>
    simp only [exec, execStat, namedSession]
    cases hv : validSession h s with
    | none => exact .inl rfl
    | some k => exact .inr (.inr (.inl ⟨k, h, rfl, rfl, validSession_lt hv, rfl⟩))
  | decb h b =>
    simp only [exec, execDecb, namedSession]
    cases hv : boundSession h s with
    | none => exact .inl rfl
    | some k =>
      obtain ⟨h1, h2⟩ := boundSession_eq_some_iff.1 hv
      exact .inr (.inr (.inr (.inl ⟨k, h, b, rfl, h1, validSession_lt h1, h2, rfl⟩)))
  | decn h a n =>
    simp only [exec, execDecn, namedSession]
    cases hv : boundSession h s with
    | none => exact .inl rfl
    | some k =>
      cases a with
      | absent => exact .inl rfl
      | present a =>
        obtain ⟨h1, h2⟩ := boundSession_eq_some_iff.1 hv
        exact .inr (.inr (.inr (.inr (.inl ⟨k, h, a, n, rfl, h1, validSession_lt h1, h2, rfl⟩))))
  | enc a n b c =>
    cases a with
    | absent => exact .inl rfl
    | present p =>
      cases b with
      | absent => exact .inl rfl
      | present o =>
        cases c with
        | absent => exact .inl rfl
        | value c => exact .inr (.inr (.inr (.inr (.inr ⟨p, n, o, c, rfl, rfl⟩))))

/-- DECB and DECN on a bound session are their loops. -/
theorem exec_decb {h : Handle} (hb : s.bindsSession h k) (b : Byte) :
    exec (.decb h b) s = finish (feedByte k b s) := by
  simp only [exec, execDecb, boundSession_eq_some_iff.2 hb]

theorem exec_decn {h : Handle} (hb : s.bindsSession h k) (a n : Word) :
    exec (.decn h (.present a) n) s = finish (consume k a.toNat n.toNat 0 s) := by
  simp only [exec, execDecn, boundSession_eq_some_iff.2 hb, refAddress]

/-- A command that completes appends one record; the pieces below say what it did. -/
theorem returns_eq_next_iff {r : Result} : returns r s = .next t ↔ t = s.respond r := by
  simp [returns, eq_comm]

theorem answers_finish_iff {i : Instr} {e : Attempt Result} {r : Result}
    (hi : exec i s = finish e) (hr : ∀ q u, e = .done q u → u.results = s.results) :
    answers i s r t ↔ ∃ u, e = .done r u ∧ t = u.respond r := by
  unfold answers
  rw [hi, finish_eq_next_iff]
  constructor
  · rintro ⟨⟨q, u, he, rfl⟩, h⟩
    rw [respond_results, hr q u he] at h
    have : q = r := by simpa using h
    exact ⟨u, this ▸ he, this ▸ rfl⟩
  · rintro ⟨u, he, rfl⟩
    exact ⟨⟨r, u, he, rfl⟩, by rw [respond_results, hr r u he]⟩

/-- DECB answers exactly as its byte does. -/
theorem answers_decb {h : Handle} {b : Byte} {r : Result} (hb : s.bindsSession h k) :
    answers (.decb h b) s r t ↔ ∃ u, feedByte k b s = .done r u ∧ t = u.respond r :=
  answers_finish_iff (exec_decb hb b)
    (fun _ _ h => ((feedByte_decodes (validSession_lt hb.1)).1 _ _ h).results)

/-- DECN answers exactly as its loop does. -/
theorem answers_decn {h : Handle} {a n : Word} {r : Result} (hb : s.bindsSession h k) :
    answers (.decn h (.present a) n) s r t ↔
      ∃ u, consume k a.toNat n.toNat 0 s = .done r u ∧ t = u.respond r :=
  answers_finish_iff (exec_decn hb a n)
    (fun _ _ h => ((consume_decodes (validSession_lt hb.1)).1 _ _ h).results)

/-- Everything a completed command did, with its record. -/
theorem answers_cases {i : Instr} {r : Result} (h : answers i s r t) :
    (r = Result.error ∧ t = s.respond r) ∨
    (∃ k h a n, i = .bind h a n ∧ namedSession i s = some k ∧ k < s.nsess ∧
      r = Result.ok ∧ t = (s.setSession k (bindSession a n)).respond r) ∨
    (∃ k h, i = .stat h ∧ namedSession i s = some k ∧ k < s.nsess ∧
      r = statResult (s.session k) ∧ t = s.respond r) ∨
    (∃ k h b u, i = .decb h b ∧ namedSession i s = some k ∧ k < s.nsess ∧
      (s.session k).bound = true ∧ feedByte k b s = .done r u ∧ t = u.respond r) ∨
    (∃ k h a n u, i = .decn h (.present a) n ∧ namedSession i s = some k ∧ k < s.nsess ∧
      (s.session k).bound = true ∧ consume k a.toNat n.toNat 0 s = .done r u ∧
      t = u.respond r) ∨
    (∃ p n o c u, i = .enc (.present p) n (.present o) (.value c) ∧
      (emitFrame p.toNat n.toNat o.toNat c.toNat s).result = .done r u ∧
      EmitsFrom o.toNat c.toNat s u ∧ t = u.respond r) := by
  have hret : ∀ {q : Result} {v : State}, exec i s = returns q v → v.results = s.results →
      r = q ∧ t = v.respond q := by
    intro q v hq hv
    have ht := returns_eq_next_iff.1 (hq.symm.trans h.1)
    have hr := h.2
    rw [ht, respond_results, hv] at hr
    exact ⟨by simpa using hr.symm, ht⟩
  rcases exec_cases i s with e | ⟨k, h', a, n, hi, hn, hk, e⟩ | ⟨k, h', hi, hn, hk, e⟩ |
    ⟨k, h', b, hi, hn, hk, hb, e⟩ | ⟨k, h', a, n, hi, hn, hk, hb, e⟩ | ⟨p, n, o, c, hi, e⟩
  · obtain ⟨rfl, ht⟩ := hret e rfl
    exact .inl ⟨rfl, ht⟩
  · obtain ⟨rfl, ht⟩ := hret e rfl
    exact .inr (.inl ⟨k, h', a, n, hi, hn, hk, rfl, ht⟩)
  · obtain ⟨rfl, ht⟩ := hret e rfl
    exact .inr (.inr (.inl ⟨k, h', hi, hn, hk, rfl, ht⟩))
  · obtain ⟨u, hu, ht⟩ := (answers_finish_iff e
      (fun _ _ h => ((feedByte_decodes hk).1 _ _ h).results)).1 h
    exact .inr (.inr (.inr (.inl ⟨k, h', b, u, hi, hn, hk, hb, hu, ht⟩)))
  · obtain ⟨u, hu, ht⟩ := (answers_finish_iff e
      (fun _ _ h => ((consume_decodes hk).1 _ _ h).results)).1 h
    exact .inr (.inr (.inr (.inr (.inl ⟨k, h', a, n, u, hi, hn, hk, hb, hu, ht⟩))))
  · have hem : ∀ q u, (emitFrame p.toNat n.toNat o.toNat c.toNat s).result = .done q u →
        EmitsFrom o.toNat c.toNat s u := by
      intro q u hq
      rcases emitFrame_cases p.toNat n.toNat o.toNat c.toNat s with ⟨_, v, -, -, hv, he⟩ |
        ⟨v, -, hv, he⟩ | ⟨_, v, -, hv, he⟩ <;> rw [he] at hq <;> simp at hq <;> exact hq.2 ▸ hv
    obtain ⟨u, hu, ht⟩ := (answers_finish_iff e (fun q u hq => (hem q u hq).results)).1 h
    exact .inr (.inr (.inr (.inr (.inr ⟨p, n, o, c, u, hi, hu, hem _ _ hu, ht⟩))))

/-! ### Sessions stay as the rules keep them (R23) -/

/-- The memory is in canonical form and every session is kept. -/
abbrev State.kept (s : State) : Prop := s.mem.wf ∧ ∀ x ∈ s.sess, x.kept

theorem setSession_kept {x : Session} (hs : s.kept) (hx : x.kept) : (s.setSession k x).kept := by
  refine ⟨hs.1, fun z hz => ?_⟩
  rcases mem_setSession _ hz with rfl | hz
  · exact hx
  · exact hs.2 z hz

theorem byteStep_state_kept {b : Byte} {ol : OutcomeCode × Word} (hk : k < s.nsess)
    (hb : (s.session k).bound = true) (hs : s.kept) (h : byteStep k b s = .done ol t) : t.kept := by
  have hx := transition_kept (m := s.params.markers) (b := b) hb (hs.2 _ (session_mem hk))
  obtain ⟨-, ⟨-, rfl⟩ | ⟨a, v, -, ha, rfl⟩⟩ := byteStep_eq_done_iff.1 h
  · exact setSession_kept hs hx
  · exact setSession_kept (s := s.poke a v) ⟨write_wf hs.1 (allows_lt ha), hs.2⟩ hx

theorem consume_state_kept {a n i : Nat} (hk : k < s.nsess) (hb : (s.session k).bound = true)
    (hs : s.kept) :
    (∀ r t, consume k a n i s = .done r t → t.kept) ∧
      (∀ x l, consume k a n i s = .memFault x l → l.kept) := by
  have h := consume_keeps (k := k) (a := a) (n := n) (i := i) (s := s)
    (motive := fun u => u.kept ∧ DecodesFrom k s u)
    (fun b u u' ol hu hstep =>
      have hk' : k < u.nsess := by rw [hu.2.nsess]; exact hk
      ⟨byteStep_state_kept hk' (by rw [hu.2.bound]; exact hb) hu.1 hstep,
        hu.2.trans (byteStep_decodes hk' hstep)⟩)
    ⟨hs, DecodesFrom.refl k s⟩
  exact ⟨fun r t ht => (h.1 r t ht).1, fun x l hl => (h.2 x l hl).1⟩

theorem feedByte_state_kept {b : Byte} (hk : k < s.nsess) (hb : (s.session k).bound = true)
    (hs : s.kept) :
    (∀ r t, feedByte k b s = .done r t → t.kept) ∧
      (∀ x l, feedByte k b s = .memFault x l → l.kept) := by
  unfold feedByte
  cases h : byteStep k b s with
  | memFault x l =>
    obtain ⟨rfl, -⟩ := byteStep_eq_fault_iff.1 h
    refine ⟨by simp, fun y l h => ?_⟩
    simp only [Attempt.memFault.injEq] at h
    exact h.2 ▸ hs
  | done ol u =>
    refine ⟨fun r t h' => ?_, by simp⟩
    simp only [Attempt.done.injEq] at h'
    exact h'.2 ▸ byteStep_state_kept hk hb hs h

theorem emitsFrom_kept {o cap : Nat} (hs : s.kept) (h : EmitsFrom o cap s t) : t.kept :=
  ⟨h.wf hs.1, by rw [h.sess]; exact hs.2⟩

end Sys2Proof.Machine
end

