-- ==== Sys2Proof/Laws/Stream.lean ====
section
/-! SUPPORT. The decoder over whole streams: how `Run` and the loop of DECN split and meet
(40_decoder.md R95, R99, R101). -/

namespace Sys2Proof.Machine

variable {k a n i : Nat} {s t u : State} {b : Byte} {w w' : List Byte}

/-! ### No MemFault on real storage -/

/-- With the output buffer writable, a byte does not fault (R141). -/
theorem byteStep_done_of_writable (b : Byte) (hw : s.outputWritable k) :
    ∃ ol u, byteStep k b s = .done ol u := by
  cases h : byteStep k b s with
  | done ol u => exact ⟨_, _, rfl⟩
  | memFault x l =>
    obtain ⟨-, v, hst, hal⟩ := byteStep_eq_fault_iff.1 h
    obtain ⟨rfl, hlt, -⟩ := transition_store hst
    exact absurd (hw _ hlt) (by simpa [Session.byteAddress] using hal)

/-- Decoding keeps the output buffer writable. -/
theorem DecodesFrom.outputWritable (h : DecodesFrom k s u) (hw : s.outputWritable k) :
    u.outputWritable k := by
  intro j hj
  rw [h.cap] at hj
  rw [h.out_base, allows_congr h.params]
  exact hw j hj

/-- With the input readable as well, DECN does not fault. -/
theorem consume_done_of_real (hk : k < s.nsess)
    (hr : ∀ j, i ≤ j → j < i + n → s.allows (a + j) .R = true) (hw : s.outputWritable k) :
    ∃ r t, consume k a n i s = .done r t := by
  induction n generalizing i s with
  | zero => exact ⟨_, _, rfl⟩
  | succ n ih =>
    have h0 := hr i le_rfl (by omega)
    obtain ⟨⟨o, len⟩, u, hb⟩ := byteStep_done_of_writable (s.mem.read (a + i)) hw
    by_cases ho : o = .CONTINUE
    · subst ho
      have hd := byteStep_decodes hk hb
      rw [consume_continue h0 hb]
      refine ih (by rw [hd.nsess]; exact hk) (fun j h1 h2 => ?_) (hd.outputWritable hw)
      rw [allows_congr hd.params]
      exact hr j (by omega) (by omega)
    · exact ⟨_, _, consume_stop h0 hb ho⟩

/-! ### The loop of DECN splits -/

/-- A loop that returned CONTINUE consumed all its bytes. -/
theorem consume_continue_result {r : Result} (h : consume k a n i s = .done r t)
    (hr : r.outcome = .CONTINUE) :
    r = { outcome := .CONTINUE, consumed := BitVec.ofNat 32 (i + n) } := by
  rcases consume_result h with rfl | ⟨_, _, _, _, ho, rfl⟩
  · rfl
  · exact absurd hr ho

/-- A DECN loop of `n + n'` bytes is that of `n` bytes, and then, if it returned CONTINUE, that of
the next `n'` (R95). -/
theorem consume_append (k a n n' i : Nat) (s : State) :
    consume k a (n + n') i s =
      match consume k a n i s with
      | .memFault x l => .memFault x l
      | .done r t => if r.outcome = .CONTINUE then consume k a n' (i + n) t else .done r t := by
  induction n generalizing i s with
  | zero => simp [consume]
  | succ n ih =>
    rw [Nat.succ_add]
    rcases consume_succ_cases k a n i s with ⟨h, e⟩ | ⟨h, y, hb, e⟩ | ⟨h, len, u, hb, e⟩ |
      ⟨h, o, len, u, hb, ho, e⟩ <;> rw [e]
    · exact consume_unreadable h
    · exact consume_fault h hb
    · rw [consume_continue h hb, ih, Nat.add_right_comm, Nat.add_assoc]
    · simp only [ho, if_false]
      exact consume_stop h hb ho

/-! ### Run -/

theorem run_cons {o : OutcomeCode} {len : Word} (hb : byteStep k b s = .done (o, len) t)
    {es : List Event} (hr : run k w (i + 1) t = .done es u) :
    run k (b :: w) i s = .done (if o = .CONTINUE then es else ⟨i, o, len⟩ :: es) u := by
  simp only [run, hb, hr]

/-- `Run` over a concatenation is `Run` over its parts, in order (R101). -/
theorem run_append {es es' : List Event} (h : run k w i s = .done es t)
    (h' : run k w' (i + w.length) t = .done es' u) :
    run k (w ++ w') i s = .done (es ++ es') u := by
  induction w generalizing i s es with
  | nil =>
    simp only [run, Attempt.done.injEq] at h
    obtain ⟨rfl, rfl⟩ := h
    simpa using h'
  | cons b w ih =>
    rw [List.cons_append]
    simp only [run] at h
    cases hb : byteStep k b s with
    | memFault x l => simp [hb] at h
    | done ol v =>
      obtain ⟨o, len⟩ := ol
      simp only [hb] at h
      cases hr : run k w (i + 1) v with
      | memFault x l => simp [hr] at h
      | done fs v' =>
        simp only [hr, Attempt.done.injEq] at h
        obtain ⟨rfl, rfl⟩ := h
        have := ih hr (by rw [List.length_cons] at h'; rwa [Nat.add_right_comm, Nat.add_assoc])
        rw [run_cons hb this]
        split <;> simp

/-- `Run` changes what decoding may change. -/
theorem run_decodes {es : List Event} (hk : k < s.nsess) (h : run k w i s = .done es t) :
    DecodesFrom k s t := by
  induction w generalizing i s es with
  | nil =>
    simp only [run, Attempt.done.injEq] at h
    exact h.2 ▸ DecodesFrom.refl k s
  | cons b w ih =>
    simp only [run] at h
    cases hb : byteStep k b s with
    | memFault x l => simp [hb] at h
    | done ol v =>
      have hd := byteStep_decodes hk hb
      simp only [hb] at h
      cases hr : run k w (i + 1) v with
      | memFault x l => simp [hr] at h
      | done fs v' =>
        simp only [hr, Attempt.done.injEq] at h
        obtain ⟨-, rfl⟩ := h
        exact hd.trans (ih (by rw [hd.nsess]; exact hk) hr)

/-- With the output buffer writable, `Run` does not fault. -/
theorem run_done_of_writable (w : List Byte) (i : Nat) (hk : k < s.nsess)
    (hw : s.outputWritable k) : ∃ es t, run k w i s = .done es t := by
  induction w generalizing i s with
  | nil => exact ⟨[], s, rfl⟩
  | cons b w ih =>
    obtain ⟨⟨o, len⟩, v, hb⟩ := byteStep_done_of_writable b hw
    have hd := byteStep_decodes hk hb
    obtain ⟨es, t, hr⟩ := ih (i + 1) (by rw [hd.nsess]; exact hk) (hd.outputWritable hw)
    exact ⟨_, t, run_cons hb hr⟩

/-- The loop of DECN is `Run` over the bytes it consumed, as they stand before it, when the output
buffer does not overlap them (R95, R101). -/
theorem consume_run {r : Result} (hk : k < s.nsess) (hm : s.mem.wf)
    (hap : ∀ j, i ≤ j → j < i + n → ∀ q < (s.session k).cap.toNat,
      a + j ≠ (s.session k).out_base.toNat + q)
    (i' : Nat) (h : consume k a n i s = .done r t) :
    ∃ j ≤ n, r.consumed = BitVec.ofNat 32 (i + j) ∧
      ∃ es, run k (s.mem.bytes (a + i) j) i' s = .done es t ∧
        (r.outcome = .CONTINUE → j = n ∧ es = []) ∧
        (r.outcome ≠ .CONTINUE → 1 ≤ j ∧ es = [⟨i' + j - 1, r.outcome, r.length⟩]) := by
  induction n generalizing i i' s with
  | zero =>
    simp only [consume, Attempt.done.injEq] at h
    obtain ⟨rfl, rfl⟩ := h
    exact ⟨0, le_rfl, rfl, [], rfl, fun _ => ⟨rfl, rfl⟩, fun h => absurd rfl h⟩
  | succ n ih =>
    rcases consume_succ_cases k a n i s with ⟨-, e⟩ | ⟨-, y, -, e⟩ | ⟨-, len, u, hb, e⟩ |
      ⟨-, o, len, u, hb, ho, e⟩ <;> rw [e] at h
    · simp at h
    · simp at h
    · have hd := byteStep_decodes hk hb
      obtain ⟨j, hj, hc, es, hr, h1, h2⟩ := ih (by rw [hd.nsess]; exact hk) (hd.wf hm)
        (fun j h1 h2 q hq => by rw [hd.out_base]; rw [hd.cap] at hq; exact hap j (by omega) (by omega) q hq)
        (i' + 1) h
      have hbytes : u.mem.bytes (a + (i + 1)) j = s.mem.bytes (a + i + 1) j := by
        rw [← Nat.add_assoc]
        refine bytes_congr (fun q hq => hd.mem hm _ (fun p hp => ?_))
        have := hap (i + 1 + q) (by omega) (by omega) p hp
        omega
      rw [hbytes] at hr
      refine ⟨j + 1, by omega, by rw [hc]; congr 1; omega, es, ?_, fun hc' => ?_, fun hc' => ?_⟩
      · rw [bytes_succ, run_cons hb hr, if_pos rfl]
      · obtain ⟨rfl, rfl⟩ := h1 hc'; exact ⟨rfl, rfl⟩
      · obtain ⟨h3, rfl⟩ := h2 hc'
        exact ⟨by omega, by congr 2; omega⟩
    · simp only [Attempt.done.injEq] at h
      obtain ⟨rfl, rfl⟩ := h
      refine ⟨1, by omega, rfl, [⟨i', o, len⟩], ?_, fun h => absurd h ho, fun _ => ⟨le_rfl, rfl⟩⟩
      rw [bytes_succ, bytes_zero, run_cons hb (w := []) rfl, if_neg ho]

end Sys2Proof.Machine
end

