-- ==== Sys2Proof/Laws/Encoder.lean ====
section
/-! SUPPORT. What ENC emits, said once: on a payload that its own writes leave alone it emits the
frame of the payload, byte by byte (41_encoder.md R108 to R112). -/

namespace Sys2Proof.Machine

variable {m : Memory} {a o cap k p n i : Nat} {v : Byte} {vs ws P : List Byte} {u u' : State}

/-! ### Runs of writes -/

/-- The memory with the bytes of a list written from `a` upward. -/
def Memory.writeAll : Memory → Nat → List Byte → Memory
  | m, _, [] => m
  | m, a, v :: vs => Memory.writeAll (m.write a v) (a + 1) vs

theorem writeAll_append (m : Memory) (a : Nat) (vs ws : List Byte) :
    m.writeAll a (vs ++ ws) = (m.writeAll a vs).writeAll (a + vs.length) ws := by
  induction vs generalizing m a with
  | nil => rfl
  | cons v vs ih =>
    simp only [List.cons_append, Memory.writeAll, ih, List.length_cons]
    congr 1; omega

theorem writeAll_wf (hm : m.wf) (h : a + vs.length ≤ addressLimit) : (m.writeAll a vs).wf := by
  induction vs generalizing m a with
  | nil => exact hm
  | cons v vs ih =>
    rw [List.length_cons] at h
    exact ih (write_wf hm (by omega)) (by omega)

/-- A byte of the run reads as written, any other byte as before (R41). -/
theorem read_writeAll (hm : m.wf) (h : a + vs.length ≤ addressLimit) (x : Nat) :
    (m.writeAll a vs).read x =
      if a ≤ x ∧ x < a + vs.length then vs.getD (x - a) 0 else m.read x := by
  induction vs generalizing m a with
  | nil => simp only [Memory.writeAll, List.length_nil]; rw [if_neg (by omega)]
  | cons v vs ih =>
    rw [List.length_cons] at h
    simp only [Memory.writeAll, List.length_cons]
    rw [ih (write_wf hm (by omega)) (by omega), read_write hm]
    by_cases hx : x = a
    · subst hx
      rw [if_neg (by omega), if_pos rfl, if_pos (by omega)]
      simp
    · rw [if_neg hx]
      by_cases hr : a + 1 ≤ x ∧ x < a + 1 + vs.length
      · rw [if_pos hr, if_pos (by omega)]
        obtain ⟨d, rfl⟩ : ∃ d, x = a + 1 + d := ⟨x - (a + 1), by omega⟩
        rw [show a + 1 + d - (a + 1) = d by omega, show a + 1 + d - a = d + 1 by omega]
        simp
      · rw [if_neg hr, if_neg (by omega)]

theorem read_writeAll_other (hm : m.wf) (h : a + vs.length ≤ addressLimit) {x : Nat}
    (hx : ∀ j < vs.length, x ≠ a + j) : (m.writeAll a vs).read x = m.read x := by
  rw [read_writeAll hm h, if_neg]
  rintro ⟨h1, h2⟩
  exact hx (x - a) (by omega) (by omega)

theorem bytes_writeAll (hm : m.wf) (h : a + vs.length ≤ addressLimit) :
    (m.writeAll a vs).bytes a vs.length = vs := by
  apply List.ext_getElem (by simp)
  intro j h1 h2
  rw [getElem_bytes h1, read_writeAll hm h, if_pos (by omega)]
  simp [h2]

/-! ### Emit of a list -/

theorem emitAll_append (o cap : Nat) (vs ws : List Byte) (k : Nat) (u : State) :
    emitAll o cap (vs ++ ws) k u = (emitAll o cap vs k u).andThen (emitAll o cap ws) := by
  induction vs generalizing k u with
  | nil => rfl
  | cons v vs ih =>
    simp only [List.cons_append, emitAll]
    cases emit o cap v k u with
    | going k' u' => exact ih k' u'
    | full u' => rfl
    | memFault x u' => rfl

/-- An emission that goes on wrote every byte of the list, inside the capacity. -/
theorem emitAll_going {k' : Nat} (hk : k ≤ cap) (h : emitAll o cap vs k u = .going k' u') :
    k' = k + vs.length ∧ k' ≤ cap ∧ u' = { u with mem := u.mem.writeAll (o + k) vs } ∧
      ∀ j < vs.length, u.allows (o + k + j) .W = true := by
  induction vs generalizing k u with
  | nil =>
    simp only [emitAll, Emission.going.injEq] at h
    obtain ⟨rfl, rfl⟩ := h
    exact ⟨rfl, hk, rfl, by simp⟩
  | cons v vs ih =>
    simp only [emitAll, emit] at h
    split at h
    · simp [Emission.andThen] at h
    · cases ha : u.allows (o + k) .W with
      | false => simp [memWrite_refused ha, Emission.andThen] at h
      | true =>
        simp only [memWrite_allowed ha, Emission.andThen] at h
        obtain ⟨rfl, h2, rfl, h4⟩ := ih (by omega) h
        refine ⟨by simp; omega, by omega, rfl, fun j hj => ?_⟩
        cases j with
        | zero => exact ha
        | succ j =>
          have := h4 j (by simpa using hj)
          rwa [poke_allows, show o + (k + 1) + j = o + k + (j + 1) by omega] at this

/-- `Emit` of a list into writable storage writes all of it, or, when the capacity is short, the
bytes that fit (R108, R114). -/
theorem emitAll_eq (hk : k ≤ cap)
    (hw : ∀ j < vs.length, k + j < cap → u.allows (o + k + j) .W = true) :
    emitAll o cap vs k u =
      if k + vs.length ≤ cap then
        .going (k + vs.length) { u with mem := u.mem.writeAll (o + k) vs }
      else .full { u with mem := u.mem.writeAll (o + k) (vs.take (cap - k)) } := by
  induction vs generalizing k u with
  | nil => simp [emitAll, hk, Memory.writeAll]
  | cons v vs ih =>
    simp only [emitAll, emit]
    split
    · subst_vars
      rw [if_neg (by simp)]
      simp [Emission.andThen, Memory.writeAll]
    · have ha := hw 0 (by simp) (by omega)
      rw [Nat.add_zero] at ha
      simp only [memWrite_allowed ha, Emission.andThen]
      rw [ih (by omega) (fun j hj hc => by
        rw [poke_allows, show o + (k + 1) + j = o + k + (j + 1) by omega]
        exact hw (j + 1) (by simpa using hj) (by omega))]
      obtain ⟨d, rfl⟩ : ∃ d, cap = k + 1 + d := ⟨cap - (k + 1), by omega⟩
      rw [show k + 1 + d - k = d + 1 by omega, show k + 1 + d - (k + 1) = d by omega]
      simp only [List.length_cons, List.take_succ_cons, Memory.writeAll, Nat.add_assoc,
        Nat.add_comm 1, State.poke]

/-- `Emit` of a list faults on the first byte that may not be written, with the bytes before it left
in place (R40). -/
theorem emitAll_fault {q : Nat} (hq : q < vs.length) (hc : k + q < cap)
    (hw : ∀ j < q, u.allows (o + k + j) .W = true) (hf : u.allows (o + k + q) .W = false) :
    emitAll o cap vs k u =
      .memFault (o + k + q) { u with mem := u.mem.writeAll (o + k) (vs.take q) } := by
  have hlen : (vs.take q).length = q := by simp; omega
  have hdrop : vs = vs.take q ++ vs[q] :: vs.drop (q + 1) := by simp
  rw [hdrop, emitAll_append, emitAll_eq (by omega) (fun j hj _ => hw j (by omega)), hlen,
    if_pos (by omega), ← hdrop]
  have hf' : State.allows { u with mem := u.mem.writeAll (o + k) (vs.take q) } (o + (k + q)) .W =
      false := by rw [← Nat.add_assoc, ← hf]; exact allows_congr rfl _
  simp only [Emission.andThen, emitAll, emit, if_neg (Nat.ne_of_lt hc), memWrite_refused hf',
    Nat.add_assoc]

/-! ### The payload -/

/-- Step 2 of R109 over `a + b` payload bytes is that over `a` bytes and then that over `b`. -/
theorem emitPayload_append (p o cap a b i k : Nat) (u : State) :
    emitPayload p o cap (a + b) i k u =
      (emitPayload p o cap a i k u).andThen (emitPayload p o cap b (i + a)) := by
  induction a generalizing i k u with
  | zero => simp [emitPayload, Emission.andThen]
  | succ a ih =>
    rw [Nat.succ_add]
    simp only [emitPayload]
    cases memRead (p + i) u with
    | memFault x t => rfl
    | done v t =>
      simp only
      cases emitAll o cap (escape t.params.markers v) k t with
      | going k' u' =>
        simp only [Emission.andThen, ih, Nat.add_assoc, Nat.add_comm 1]
      | full _ => rfl
      | memFault _ _ => rfl

/-- On the bytes it reads as its own writes leave them, step 2 of R109 is `Emit` of the escaped
payload. Only a byte that is reached, its encoding beginning at an output position of `cap` or less
(R114) with every byte before it written, need be readable (R40). -/
theorem emitPayload_eq (hk : k ≤ cap)
    (h : ∀ j < P.length, k + (frameBody u.params.markers (P.take j)).length ≤ cap →
      (∀ q < (frameBody u.params.markers (P.take j)).length, u.allows (o + k + q) .W = true) →
      u.allows (p + i + j) .R = true ∧
        P[j]? = some ((u.mem.writeAll (o + k) (frameBody u.params.markers (P.take j))).read
          (p + i + j))) :
    emitPayload p o cap P.length i k u = emitAll o cap (frameBody u.params.markers P) k u := by
  induction P generalizing i k u with
  | nil => rfl
  | cons b P ih =>
    have hcons : ∀ Q, frameBody u.params.markers (b :: Q) =
        escape u.params.markers b ++ frameBody u.params.markers Q := fun Q => by
      simp [frameBody]
    obtain ⟨h0, hb⟩ := h 0 (by simp) (by simpa [frameBody] using hk) (by simp [frameBody])
    simp only [Nat.add_zero, List.getElem?_cons_zero, List.take_zero, frameBody, List.flatMap_nil,
      Memory.writeAll, Option.some.injEq] at h0 hb
    rw [List.length_cons, emitPayload, memRead_allowed h0, hcons, emitAll_append]
    simp only [← hb]
    cases e : emitAll o cap (escape u.params.markers b) k u with
    | full u' => rfl
    | memFault x u' => rfl
    | going k' u' =>
      obtain ⟨rfl, hk', rfl, hal⟩ := emitAll_going hk e
      simp only [Emission.andThen]
      refine ih hk' (fun j hj hc hw => ?_)
      have := h (j + 1) (by simpa using hj)
        (by rw [List.take_succ_cons, hcons, List.length_append]; simp only at hc; omega)
        (fun q hq => by
          rw [List.take_succ_cons, hcons, List.length_append] at hq
          by_cases hlt : q < (escape u.params.markers b).length
          · exact hal q hlt
          · have := hw (q - (escape u.params.markers b).length) (by simp only; omega)
            rw [← this, show o + (k + (escape u.params.markers b).length) +
              (q - (escape u.params.markers b).length) = o + k + q by omega]
            exact allows_congr rfl _)
      rw [List.take_succ_cons, hcons, writeAll_append, List.getElem?_cons_succ] at this
      rw [show p + (i + 1) + j = p + i + (j + 1) by omega, ← Nat.add_assoc o k]
      exact ⟨(allows_congr rfl _).trans this.1, this.2⟩

/-- `Emit` of one byte is `Emit` of a list of one. -/
theorem emitAll_singleton (o cap : Nat) (v : Byte) (k : Nat) (u : State) :
    emitAll o cap [v] k u = emit o cap v k u := by
  simp only [emitAll]
  cases emit o cap v k u <;> rfl

/-- On the bytes it reads as its own writes leave them, ENC is `Emit` of the frame (R44, R109). -/
theorem emitFrame_eq_of_seen
    (h : ∀ j < P.length, 1 + (frameBody u.params.markers (P.take j)).length ≤ cap →
      (∀ q < 1 + (frameBody u.params.markers (P.take j)).length, u.allows (o + q) .W = true) →
      u.allows (p + j) .R = true ∧
        P[j]? = some ((u.mem.writeAll o
          (u.params.markers.END :: frameBody u.params.markers (P.take j))).read (p + j))) :
    emitFrame p P.length o cap u = emitAll o cap (frame u.params.markers P) 0 u := by
  have hf : frame u.params.markers P =
      [u.params.markers.END] ++ (frameBody u.params.markers P ++ [u.params.markers.END]) := by
    simp [frame]
  unfold emitFrame
  rw [hf, emitAll_append, emitAll_singleton]
  cases e : emit o cap u.params.markers.END 0 u with
  | full u' => rfl
  | memFault x u' => rfl
  | going k' u' =>
    obtain ⟨rfl, hk', rfl, hal⟩ := emitAll_going (Nat.zero_le _) ((emitAll_singleton ..).trans e)
    simp only [Emission.andThen]
    rw [emitPayload_eq (i := 0) hk', emitAll_append]
    · cases emitAll o cap (frameBody u.params.markers P) (0 + 1)
        { u with mem := u.mem.writeAll (o + 0) [u.params.markers.END] } with
      | full _ => rfl
      | memFault _ _ => rfl
      | going k t => exact (emitAll_singleton ..).symm
    · intro j hj hc hw
      have := h j hj (by simpa [Nat.add_comm] using hc) (fun q hq => by
        cases q with
        | zero => simpa using hal 0 (by simp)
        | succ q =>
          have := hw q (by simp only; omega)
          rw [← this, show o + (0 + [u.params.markers.END].length) + q = o + (q + 1) by
            simp only [List.length_singleton]; omega]
          exact allows_congr rfl _)
      rw [Nat.add_zero]
      exact ⟨(allows_congr rfl _).trans this.1, this.2⟩

/-- On a payload its own writes leave alone, ENC is `Emit` of the frame (R109). -/
theorem emitFrame_eq (hm : u.mem.wf) (hb : u.mem.bytes p P.length = P)
    (hr : ∀ j < P.length, 1 + (frameBody u.params.markers (P.take j)).length ≤ cap →
      u.allows (p + j) .R = true)
    (hap : ∀ j < P.length, ∀ q < (frame u.params.markers P).length, q < cap →
      p + j ≠ o + q) :
    emitFrame p P.length o cap u = emitAll o cap (frame u.params.markers P) 0 u := by
  refine emitFrame_eq_of_seen (fun j hj hc hw => ⟨hr j hj hc, ?_⟩)
  have hlast := allows_lt (hw (frameBody u.params.markers (P.take j)).length (by omega))
  have hle : (frameBody u.params.markers (P.take j)).length ≤
      (frameBody u.params.markers P).length := by
    conv_rhs => rw [← List.take_append_drop j P]
    rw [frameBody, frameBody, List.flatMap_append, List.length_append]
    omega
  rw [read_writeAll_other hm (by simp only [List.length_cons, addressLimit] at hlast ⊢; omega)
    (fun q hq => hap j hj q
      (by simp only [frame, List.length_append, List.length_cons] at hq ⊢; omega)
      (by simp only [List.length_cons] at hq; omega))]
  have hj' : j < (u.mem.bytes p P.length).length := by simpa using hj
  conv_lhs => rw [← hb]
  rw [List.getElem?_eq_getElem hj', getElem_bytes hj']

/-- A payload byte that ENC's own writes may have reached: what step 2 of R109 reads and emits when
it goes on, whatever overlaps (R44). -/
theorem emitPayload_going {k' : Nat} (hk : k ≤ cap)
    (h : emitPayload p o cap n i k u = .going k' u') :
    ∃ Q : List Byte, Q.length = n ∧
      emitAll o cap (frameBody u.params.markers Q) k u = .going k' u' ∧
      ∀ j < n, Q[j]? =
        some ((u.mem.writeAll (o + k) (frameBody u.params.markers (Q.take j))).read
          (p + (i + j))) := by
  induction n generalizing i k u with
  | zero => exact ⟨[], rfl, h, by simp⟩
  | succ n ih =>
    simp only [emitPayload] at h
    cases ha : u.allows (p + i) .R with
    | false => simp [memRead_refused ha] at h
    | true =>
      simp only [memRead_allowed ha] at h
      cases e : emitAll o cap (escape u.params.markers (u.mem.read (p + i))) k u with
      | full _ => simp [e, Emission.andThen] at h
      | memFault _ _ => simp [e, Emission.andThen] at h
      | going k1 u1 =>
        obtain ⟨rfl, hk1, rfl, -⟩ := emitAll_going hk e
        simp only [e, Emission.andThen] at h
        obtain ⟨Q, rfl, hQ, hget⟩ := ih hk1 h
        refine ⟨u.mem.read (p + i) :: Q, rfl, ?_, fun j hj => ?_⟩
        · rw [frameBody, List.flatMap_cons, emitAll_append, e]
          exact hQ
        · cases j with
          | zero => simp [frameBody, Memory.writeAll]
          | succ j =>
            rw [List.getElem?_cons_succ, hget j (by simpa using hj), List.take_succ_cons,
              frameBody, frameBody, List.flatMap_cons, writeAll_append,
              Nat.add_assoc o k, show i + 1 + j = i + (j + 1) by omega]

end Sys2Proof.Machine
end

