-- ==== Sys2Proof/Laws/Inert.lean ====
section
/-! SUPPORT. What a command does not depend on: a change of the state that a command neither reads nor
overwrites passes through it (10_state.md R17, R27). -/

namespace Sys2Proof.Machine

variable {f : State → State} {k : Nat}

/-- An attempt with a function applied to the state it leaves. -/
def Attempt.mapState {α : Type} (f : State → State) : Attempt α → Attempt α
  | .done v s => .done v (f s)
  | .memFault a s => .memFault a (f s)

/-- An emission with a function applied to the state it leaves. -/
def Emission.mapState (f : State → State) : Emission → Emission
  | .going k s => .going k (f s)
  | .full s => .full (f s)
  | .memFault a s => .memFault a (f s)

/-- A change that the memory accesses neither see nor disturb. -/
structure MemoryInert (f : State → State) : Prop where
  params : ∀ s, (f s).params = s.params
  mem : ∀ s, (f s).mem = s.mem
  poke : ∀ s a v, f (s.poke a v) = (f s).poke a v

/-- A change that decoding on session `k` neither sees nor disturbs. -/
structure SessionInert (f : State → State) (k : Nat) : Prop extends MemoryInert f where
  session : ∀ s, (f s).session k = s.session k
  setSession : ∀ s x, f (s.setSession k x) = (f s).setSession k x

theorem finish_mapState (hf : ∀ r s, f (s.respond r) = (f s).respond r) (e : Attempt Result) :
    finish (e.mapState f) = mapOutcome f (finish e) := by
  cases e <;> simp [Attempt.mapState, finish, mapOutcome, returns, hf]

theorem byteStep_inert (hf : SessionInert f k) (b : Byte) (s : State) :
    byteStep k b (f s) = (byteStep k b s).mapState f := by
  unfold byteStep
  rw [hf.params, hf.session]
  generalize transition s.params.markers (s.session k) b = tr
  obtain ⟨after, store, o, len⟩ := tr
  cases store with
  | none => simp [Attempt.mapState, hf.setSession]
  | some av =>
    obtain ⟨a, v⟩ := av
    have ha : (f s).allows a .W = s.allows a .W := allows_congr (hf.params s) _
    cases h : s.allows a .W <;> rw [h] at ha
    · simp [memWrite_refused h, memWrite_refused ha, Attempt.mapState]
    · simp [memWrite_allowed h, memWrite_allowed ha, Attempt.mapState, hf.setSession, hf.poke]

theorem feedByte_inert (hf : SessionInert f k) (b : Byte) (s : State) :
    feedByte k b (f s) = (feedByte k b s).mapState f := by
  unfold feedByte
  rw [byteStep_inert hf]
  cases byteStep k b s <;> rfl

theorem consume_inert (hf : SessionInert f k) (a n i : Nat) (s : State) :
    consume k a n i (f s) = (consume k a n i s).mapState f := by
  induction n generalizing i s with
  | zero => rfl
  | succ n ih =>
    have ha : (f s).allows (a + i) .R = s.allows (a + i) .R := allows_congr (hf.params s) _
    have hb := byteStep_inert hf (s.mem.read (a + i)) s
    rcases consume_succ_cases k a n i s with ⟨h, e⟩ | ⟨h, y, hb', e⟩ | ⟨h, len, u, hb', e⟩ |
      ⟨h, o, len, u, hb', ho, e⟩ <;> rw [e] <;> rw [h] at ha
    · rw [consume_unreadable ha]; rfl
    · rw [hb', ← hf.mem s] at hb; rw [consume_fault ha hb]; rfl
    · rw [hb', ← hf.mem s] at hb; rw [consume_continue ha hb, ih]
    · rw [hb', ← hf.mem s] at hb; rw [consume_stop ha hb ho]; rfl

theorem emit_inert (hf : MemoryInert f) (o c : Nat) (v : Byte) (k : Nat) (s : State) :
    emit o c v k (f s) = (emit o c v k s).mapState f := by
  unfold emit
  split
  · rfl
  · have ha : (f s).allows (o + k) .W = s.allows (o + k) .W := allows_congr (hf.params s) _
    cases h : s.allows (o + k) .W <;> rw [h] at ha
    · simp [memWrite_refused h, memWrite_refused ha, Emission.mapState]
    · simp [memWrite_allowed h, memWrite_allowed ha, Emission.mapState, hf.poke]

theorem andThen_inert {g h : Nat → State → Emission} (e : Emission)
    (hg : ∀ k s, g k (f s) = (h k s).mapState f) :
    (e.mapState f).andThen g = (e.andThen h).mapState f := by
  cases e <;> simp [Emission.mapState, Emission.andThen, hg]

theorem emitAll_inert (hf : MemoryInert f) (o c : Nat) (vs : List Byte) (k : Nat) (s : State) :
    emitAll o c vs k (f s) = (emitAll o c vs k s).mapState f := by
  induction vs generalizing k s with
  | nil => rfl
  | cons v vs ih => simp only [emitAll, emit_inert hf]; exact andThen_inert _ ih

theorem emitPayload_inert (hf : MemoryInert f) (p o c n i k : Nat) (s : State) :
    emitPayload p o c n i k (f s) = (emitPayload p o c n i k s).mapState f := by
  induction n generalizing i k s with
  | zero => rfl
  | succ n ih =>
    unfold emitPayload
    have ha : (f s).allows (p + i) .R = s.allows (p + i) .R := allows_congr (hf.params s) _
    cases h : s.allows (p + i) .R <;> rw [h] at ha
    · simp [memRead_refused h, memRead_refused ha, Emission.mapState]
    · simp only [memRead_allowed h, memRead_allowed ha, hf.mem, hf.params, emitAll_inert hf]
      exact andThen_inert _ (ih (i + 1))

theorem emitFrame_inert (hf : MemoryInert f) (p n o c : Nat) (s : State) :
    emitFrame p n o c (f s) = (emitFrame p n o c s).mapState f := by
  unfold emitFrame
  rw [hf.params, emit_inert hf, andThen_inert _ (emitPayload_inert hf p o c n 0)]
  exact andThen_inert _ (emit_inert hf _ _ _)

theorem result_mapState (e : Emission) : (e.mapState f).result = e.result.mapState f := by
  cases e <;> rfl

/-- Replacing what the caller has been told and will do next is a change no command sees (R27). -/
theorem interface_inert (k : Nat) (rs : List Result) (ps : List Input) :
    SessionInert (fun t => { t with results := rs, pending := ps }) k :=
  { params := fun _ => rfl, mem := fun _ => rfl, poke := fun _ _ _ => rfl
    session := fun _ => rfl, setSession := fun _ _ => rfl }

/-- The fields of another session are a change no command on session `k` sees (R17). -/
theorem otherSession_inert {j : Nat} (hj : k ≠ j) (x : Session) :
    SessionInert (fun t => t.setSession j x) k :=
  { params := fun _ => rfl, mem := fun _ => rfl, poke := fun _ _ _ => rfl
    session := fun _ => session_setSession_other _ hj
    setSession := fun _ _ => setSession_comm _ _ hj.symm }

end Sys2Proof.Machine
end

