-- ==== Sys2Proof/Laws/PerInstr.lean ====
section
/-! SUPPORT. The family of statements made per instruction: how the descriptor of each command is
spelled (30_encoding.md R63, R64). -/

namespace Sys2Proof.Laws.Spelling

/-- The opcode of a command (R64). -/
def opcode : Instr → BitVec 8
  | .bind _ _ _ => 0x01
  | .decb _ _ => 0x02
  | .decn _ _ _ => 0x03
  | .enc _ _ _ _ => 0x04
  | .stat _ => 0x05

/-- A command's descriptor carries its opcode, and its reserved bits are written 0 (R63, R64). -/
def Statement (i : Instr) : Prop :=
  (encode i).op = opcode i ∧ (encode i).field 12 4 = 0 ∧ (encode i).field 24 8 = 0

theorem bind (h : Handle) (a : Ref) (n : Word) : Statement (.bind h a n) := by
  simp [Statement, encode, opcode]

theorem decb (h : Handle) (byte : Byte) : Statement (.decb h byte) := by
  simp [Statement, encode, opcode]

theorem decn (h : Handle) (a : Ref) (n : Word) : Statement (.decn h a n) := by
  simp [Statement, encode, opcode]

theorem enc (a : Ref) (n : Word) (b : Ref) (c : Capacity) : Statement (.enc a n b c) := by
  simp [Statement, encode, opcode]

theorem stat (h : Handle) : Statement (.stat h) := by
  simp [Statement, encode, opcode]

end Sys2Proof.Laws.Spelling
end

