-- ==== Sys2Proof/Laws/Runs.lean ====
section
/-! SUPPORT. `Run` over the pieces a wire stream is made of: noise in IDLE, the two boundaries, and
the escaped bytes of a payload, stored or overflowing (40_decoder.md R79 to R91, R101). -/

namespace Sys2Proof.Machine

variable {k i : Nat} {s : State} {b : Byte} {P g : List Byte}

/-- One byte of `Run` whose transition stores nothing. -/
theorem run_quiet (hst : (transition s.params.markers (s.session k) b).store = none) :
    run k [b] i s = .done
      (if (transition s.params.markers (s.session k) b).outcome = .CONTINUE then []
        else [⟨i, (transition s.params.markers (s.session k) b).outcome,
          (transition s.params.markers (s.session k) b).length⟩])
      (s.setSession k (transition s.params.markers (s.session k) b).after) := by
  simp only [run, byteStep, hst]

/-- Noise in IDLE is discarded (R81). -/
theorem run_noise (hs : (s.session k).state = .IDLE) (hg : s.params.markers.END ∉ g) :
    run k g i s = .done [] s := by
  induction g generalizing i with
  | nil => rfl
  | cons b g ih =>
    simp only [List.mem_cons, not_or] at hg
    have hb : byteStep k b s = .done (.CONTINUE, 0) s := by
      simp [byteStep, transition, hs, stepIdle, Ne.symm hg.1, Transition.quiet]
    rw [run_cons hb (ih hg.2), if_pos rfl]

/-- The leading END opens a frame, from IDLE (R80) and from an empty frame (R82) alike. -/
theorem run_open (hs : (s.session k).state = .IDLE ∨
      ((s.session k).state = .ACTIVE ∧ (s.session k).widx = 0)) :
    run k [s.params.markers.END] i s =
      .done [] (s.setSession k { s.session k with state := .ACTIVE, widx := 0 }) := by
  rcases hs with hs | ⟨hs, hw⟩
  · rw [run_quiet] <;> simp [transition, hs, stepIdle, Transition.quiet]
  · rw [run_quiet] <;> simp only [transition, hs, stepActive, stepFrameEnd, hw, Transition.quiet,
      if_true]
    congr 2
    rw [show s.session k = { s.session k with state := .ACTIVE, widx := 0 } by
      rw [← hs, ← hw]]

/-- The trailing END completes a frame (R83). -/
theorem run_close (hs : (s.session k).state = .ACTIVE) (hw : (s.session k).widx ≠ 0) :
    run k [s.params.markers.END] i s =
      .done [⟨i, .COMPLETE, (s.session k).widx⟩]
        (s.setSession k { s.session k with frame_len := (s.session k).widx, widx := 0 }) := by
  have hw' : ¬ (s.session k).widx = 0#32 := hw
  rw [run_quiet] <;> simp [transition, hs, stepActive, stepFrameEnd, hw']

/-- The wire bytes of one payload byte, on a session with room, store it (R84, R86, R88). -/
theorem run_escape_stores (hm : s.params.markers.distinct = true) (hk : k < s.nsess)
    (hs : (s.session k).state = .ACTIVE) (hw : (s.session k).widx.toNat < (s.session k).cap.toNat)
    (ha : s.allows ((s.session k).byteAddress (s.session k).widx.toNat) .W = true) (b : Byte) :
    run k (escape s.params.markers b) i s =
      .done [] ((s.poke ((s.session k).byteAddress (s.session k).widx.toNat) b).setSession k
        { s.session k with widx := (s.session k).widx + 1 }) := by
  simp only [Markers.distinct, Bool.and_eq_true, bne_iff_ne, ne_eq] at hm
  obtain ⟨⟨⟨⟨⟨h1, h2⟩, h3⟩, h4⟩, h5⟩, h6⟩ := hm
  have hx : { s.session k with widx := (s.session k).widx + 1, state := .ACTIVE } =
      { s.session k with widx := (s.session k).widx + 1 } := by rw [← hs]
  have hesc : byteStep k s.params.markers.ESC s =
      .done (.CONTINUE, 0) (s.setSession k { s.session k with state := .ESCAPED }) := by
    simp [byteStep, transition, hs, stepActive, Ne.symm h1, Transition.quiet]
  have hcode : ∀ c v, unescape s.params.markers c = some v →
      run k [s.params.markers.ESC, c] i s =
        .done [] ((s.poke ((s.session k).byteAddress (s.session k).widx.toNat) v).setSession k
          { s.session k with widx := (s.session k).widx + 1 }) := by
    intro c v hc
    have hb : byteStep k c (s.setSession k { s.session k with state := .ESCAPED }) =
        .done (.CONTINUE, 0)
          ((s.poke ((s.session k).byteAddress (s.session k).widx.toNat) v).setSession k
            { s.session k with widx := (s.session k).widx + 1 }) := by
      have ha' : (s.setSession k { s.session k with state := .ESCAPED }).allows
          ((s.session k).byteAddress (s.session k).widx.toNat) .W = true := by
        rw [setSession_allows]; exact ha
      simp only [byteStep, setSession_params, session_setSession_same _ hk, transition, stepEscaped,
        hc, storePayload, if_pos hw]
      have haddr : ∀ j, Session.byteAddress { s.session k with state := .ESCAPED } j =
          (s.session k).byteAddress j := fun _ => rfl
      simp only [haddr, memWrite_allowed ha', ← setSession_poke, setSession_setSession]
      rw [← hx]
    rw [run_cons hesc (run_cons hb rfl)]
    simp
  unfold escape
  split
  · subst_vars; exact hcode _ s.params.markers.END (by simp [unescape])
  · rename_i hE
    split
    · subst_vars; exact hcode _ s.params.markers.ESC (by simp [unescape, Ne.symm h6])
    · rename_i hS
      have hb : byteStep k b s =
          .done (.CONTINUE, 0)
            ((s.poke ((s.session k).byteAddress (s.session k).widx.toNat) b).setSession k
              { s.session k with widx := (s.session k).widx + 1 }) := by
        simp only [byteStep, transition, hs, stepActive, storePayload, if_pos hw, if_neg hE, if_neg hS,
          memWrite_allowed ha]
      rw [run_cons hb rfl, if_pos rfl]

/-- The wire bytes of one payload byte, on a full session, overflow on the last of them (R84, R85,
R89). -/
theorem run_escape_overflows (hm : s.params.markers.distinct = true) (hk : k < s.nsess)
    (hs : (s.session k).state = .ACTIVE) (hw : (s.session k).widx = (s.session k).cap) (b : Byte) :
    run k (escape s.params.markers b) i s =
      .done [⟨i + (escape s.params.markers b).length - 1, .OVERFLOW, 0⟩]
        (s.setSession k { s.session k with state := .IDLE, widx := 0 }) := by
  simp only [Markers.distinct, Bool.and_eq_true, bne_iff_ne, ne_eq] at hm
  obtain ⟨⟨⟨⟨⟨h1, h2⟩, h3⟩, h4⟩, h5⟩, h6⟩ := hm
  have hesc : byteStep k s.params.markers.ESC s =
      .done (.CONTINUE, 0) (s.setSession k { s.session k with state := .ESCAPED }) := by
    simp [byteStep, transition, hs, stepActive, Ne.symm h1, Transition.quiet]
  have hcode : ∀ c v, unescape s.params.markers c = some v →
      run k [s.params.markers.ESC, c] i s =
        .done [⟨i + 1, .OVERFLOW, 0⟩]
          (s.setSession k { s.session k with state := .IDLE, widx := 0 }) := by
    intro c v hc
    have hb : byteStep k c (s.setSession k { s.session k with state := .ESCAPED }) =
        .done (.OVERFLOW, 0) (s.setSession k { s.session k with state := .IDLE, widx := 0 }) := by
      simp [byteStep, session_setSession_same _ hk, transition, stepEscaped, hc, storePayload, hw,
        Transition.aborting, Session.abort]
    rw [run_cons hesc (run_cons hb rfl)]
    simp
  unfold escape
  split
  · subst_vars; exact hcode _ s.params.markers.END (by simp [unescape])
  · rename_i hE
    split
    · subst_vars; exact hcode _ s.params.markers.ESC (by simp [unescape, Ne.symm h6])
    · rename_i hS
      rw [run_quiet] <;> simp [transition, hs, stepActive, storePayload, hw, hE, hS,
        Transition.aborting, Session.abort]

/-- The state after a payload is stored at the write index of session `k`. -/
def State.stored (s : State) (k : Nat) (P : List Byte) : State :=
  { s with
    mem := s.mem.writeAll ((s.session k).out_base.toNat + (s.session k).widx.toNat) P
    sess := s.sess.set k { s.session k with widx := (s.session k).widx + BitVec.ofNat 32 P.length } }

theorem stored_session (hk : k < s.nsess) : (s.stored k P).session k =
    { s.session k with widx := (s.session k).widx + BitVec.ofNat 32 P.length } := by
  have hk' : k < s.sess.length := hk
  simp [State.session, State.stored, hk']

/-- An escaped payload on a session with room for it is stored, silently (R86, R88). -/
theorem run_body_stores (hm : s.params.markers.distinct = true) (hk : k < s.nsess)
    (hs : (s.session k).state = .ACTIVE)
    (hw : (s.session k).widx.toNat + P.length ≤ (s.session k).cap.toNat) (ho : s.outputWritable k) :
    run k (frameBody s.params.markers P) i s = .done [] (s.stored k P) := by
  induction P generalizing i s with
  | nil =>
    simp only [frameBody, List.flatMap_nil, run, State.stored, Memory.writeAll, List.length_nil,
      BitVec.add_zero]
    exact congrArg _ (setSession_self s k).symm
  | cons b P ih =>
    rw [List.length_cons] at hw
    have hc := (s.session k).cap.isLt
    have h1 := run_escape_stores (i := i) hm hk hs (by omega) (ho _ (by omega)) b
    have hsucc : ((s.session k).widx + 1).toNat = (s.session k).widx.toNat + 1 := by
      rw [BitVec.toNat_add]; simp; omega
    have h2 := ih (i := i + (escape s.params.markers b).length)
      (s := (s.poke ((s.session k).byteAddress (s.session k).widx.toNat) b).setSession k
        { s.session k with widx := (s.session k).widx + 1 }) hm
      (by rw [setSession_nsess]; exact hk)
      (by rw [session_setSession_same _ (by exact hk)]; exact hs)
      (by rw [session_setSession_same _ (by exact hk)]; simp only [hsucc]; omega)
      (by
        intro j hj
        rw [session_setSession_same _ (by exact hk)] at hj ⊢
        exact ho j hj)
    have h12 := run_append h1 h2
    rw [frameBody, List.flatMap_cons]
    refine h12.trans ?_
    simp only [List.nil_append, State.stored, setSession_sess, setSession_mem, poke_mem, poke_sess,
      session_setSession_same (s := s.poke _ _) _ (by exact hk : k < (s.poke _ _).nsess),
      List.set_set, Memory.writeAll, hsucc, List.length_cons, Session.byteAddress]
    have hn : (s.session k).widx + 1 + BitVec.ofNat 32 P.length =
        (s.session k).widx + BitVec.ofNat 32 (P.length + 1) := by
      rw [BitVec.add_assoc, BitVec.ofNat_add, BitVec.add_comm 1]
      rfl
    rw [hn]
    simp [State.setSession, State.poke, Nat.add_assoc]

/-- The body of a frame holds no END. -/
theorem end_not_mem_body (m : Markers) (hm : m.distinct = true) (P : List Byte) :
    m.END ∉ frameBody m P := by
  simp only [Markers.distinct, Bool.and_eq_true, bne_iff_ne, ne_eq] at hm
  obtain ⟨⟨⟨⟨⟨h1, h2⟩, h3⟩, h4⟩, h5⟩, h6⟩ := hm
  simp only [frameBody, List.mem_flatMap, not_exists, not_and]
  intro b _
  unfold escape
  split
  · simp [h1, h2]
  · split
    · simp [h1, h3]
    · simp [eq_comm, *]

end Sys2Proof.Machine
end

