-- ==== Sys2Proof/Tests/Slice0.lean ====
section
/-! SUPPORT. The model's own tests. Every expected value is copied from 95_test_vectors.md (the row is
named in the comment) or worked out by hand from the rule named. The `witness_` theorems show, for each
statement that has hypotheses, a concrete state and operands that meet all of them. -/

namespace Sys2Proof.Tests

open Sys2Proof Sys2Proof.Machine

/-! ### Fixtures -/

/-- One session with the fields 95 writes as `(bound, state, out_base, cap, widx, frame_len)`, beside
a memory, under the default profile. -/
def fix (bound : Bool) (state : Mode) (base cap widx flen : Word) (m : Memory := []) : State :=
  { State.reset with sess := [⟨bound, state, base, cap, widx, flen⟩], mem := m }

/-- Two sessions bound to buffers that do not overlap. -/
def two (x y : Mode) : State :=
  { State.reset with sess := [⟨true, x, 0x2000, 2, 0, 0⟩, ⟨true, y, 0x4000, 2, 0, 0⟩] }

/-- The same machine with a `MEM_OK` that refuses everything. -/
def sealed (s : State) : State := { s with params := { s.params with regions := [] } }

/-- The same machine with a `MEM_OK` that allows these regions only. -/
def within (s : State) (rs : List Region) : State :=
  { s with params := { s.params with regions := rs } }

/-- The same machine with the caller's inputs. -/
def given (s : State) (is : List Input) : State := { s with pending := is }

/-- The state an outcome leaves, if it is a next state. -/
def nextOf : Host.Outcome State Fault Refusal → Option State
  | .next s => some s
  | _ => none

/-- The record an outcome returns last. -/
def record (o : Host.Outcome State Fault Refusal) : Option Result :=
  (nextOf o).bind (fun s => s.results.getLast?)

/-- The session and the memory an outcome leaves. -/
def left (o : Host.Outcome State Fault Refusal) : Option (List Session × Memory) :=
  (nextOf o).map (fun s => (s.sess, s.mem))

/-- Handle `s0`. -/
def s0 : Handle := .session 0

/-! ### Well-formedness (R8, R9, R63) -/

/-- A parameter set with the four markers. -/
def marked (a b c d : Byte) : Params := ⟨⟨a, b, c, d⟩, []⟩

theorem test_params_default_accepted : Params.ofReset.accepted 1 = true := by decide
theorem test_params_no_session : Params.ofReset.accepted 0 = false := by decide
theorem test_params_END_ESC : (marked 1 1 2 3).accepted 1 = false := by decide
theorem test_params_END_ESC_END : (marked 1 2 1 3).accepted 1 = false := by decide
theorem test_params_END_ESC_ESC : (marked 1 2 3 1).accepted 1 = false := by decide
theorem test_params_ESC_ESC_END : (marked 1 2 2 3).accepted 1 = false := by decide
theorem test_params_ESC_ESC_ESC : (marked 1 2 3 2).accepted 1 = false := by decide
theorem test_params_ESC_END_ESC_ESC : (marked 1 2 3 3).accepted 1 = false := by decide

/-- R10: a set that breaks the examples' presuppositions is still accepted. -/
theorem test_params_examples :
    (marked 1 2 3 4).accepted 1 = true ∧ (marked 1 2 3 4).markers.admitExamples = false := by decide

/-- VD4's reserved bits, and a reserved bit of `[31:24]`. -/
theorem test_canonical_refuses_reserved_bits :
    (Descriptor.ofWords 0x00C0F102 0 0 0 0 0).canonical = false ∧
    (Descriptor.ofWords 0x01C00102 0 0 0 0 0).canonical = false := by decide

/-- The index of a NULL handle, and the value of an absent A, B and C. -/
theorem test_canonical_refuses_absent_values :
    (Descriptor.ofWords 0x00C00002 3 0 0 0 0).canonical = false ∧
    (Descriptor.ofWords 0x00000103 0 7 0 0 0).canonical = false ∧
    (Descriptor.ofWords 0x00000004 0 0 0 7 0).canonical = false ∧
    (Descriptor.ofWords 0x00000004 0 0 0 0 7).canonical = false := by decide

/-- A field the command does not name: `byte` of BIND, `n` of DECB, `hp` of ENC, `n` of STAT. -/
theorem test_canonical_refuses_unnamed_fields :
    (Descriptor.ofWords 0x00010101 0 0 0 0 0).canonical = false ∧
    (Descriptor.ofWords 0x00C00102 0 0 9 0 0).canonical = false ∧
    (Descriptor.ofWords 0x00000104 0 0 0 0 0).canonical = false ∧
    (Descriptor.ofWords 0x00000105 0 0 9 0 0).canonical = false := by decide

/-! ### Decoding, from the words 95 writes -/

/-- "As one 192-bit number it is ..." (95, descriptor encoding). -/
theorem test_decode_bind :
    decode 0x000000000000000000000010000020000000000000000301#192 =
      .ok (.bind s0 (.present 0x2000) 16) := rfl

/-- VD3: `DECB s3, 0xC0`. -/
theorem test_decode_decb :
    decode (Descriptor.ofWords 0x00C00102 3 0 0 0 0) = .ok (.decb (.session 3) 0xC0) := rfl

/-- P1.2: `DECN s0, @0x1000, 9`. -/
theorem test_decode_decn :
    decode (Descriptor.ofWords 0x00000303 0 0x1000 9 0 0) = .ok (.decn s0 (.present 0x1000) 9) := rfl

/-- P2.1: `ENC @0x1000, 3, @0x3000, 6`. -/
theorem test_decode_enc :
    decode (Descriptor.ofWords 0x00000E04 0 0x1000 3 0x3000 6) =
      .ok (.enc (.present 0x1000) 3 (.present 0x3000) (.value 6)) := rfl

/-- VT1: `STAT s0`. -/
theorem test_decode_stat :
    decode (Descriptor.ofWords 0x00000105 0 0 0 0 0) = .ok (.stat s0) := rfl

/-- VC2: opcode `0x06` is no command. -/
theorem test_decode_undefined :
    decode (Descriptor.ofWords 6 0 0 0 0 0) = .error (.undefinedOpcode 6) := rfl

/-- The encoder writes the words 95 gives for VB4's neighbour P1.1 and for VE14. -/
theorem test_encode :
    encode (.bind s0 (.present 0x2000) 16) = Descriptor.ofWords 0x00000301 0 0x2000 0x10 0 0 ∧
    encode (.enc .absent 1 (.present 0x3000) (.value 4)) =
      Descriptor.ofWords 0x00000C04 0 0 1 0x3000 4 := by decide

/-- A table word shorter than a descriptor leaves the bits above it 0. -/
theorem test_table_word : decodeTableWord 8 0xFFFF02 = some (.decb .null 0) := rfl

/-- The assembler spelling of R70. -/
theorem test_asm :
    (Instr.bind s0 (.present 16) 8).asm = "BIND s0, @16, 8" ∧
    (Instr.enc .absent 0 (.present 1) .absent).asm = "ENC -, 0, @1, -" := by decide

/-- The assembler lines of R70's examples and of 95 section 2, and a FEED (R71). -/
theorem test_assemble :
    assemble Markers.defaultProfile "BIND s0, @0x2000, 16 ; bind".toList =
      some [.bind s0 (.present 0x2000) 16] ∧
    assemble Markers.defaultProfile "ENC  @0x1000, 1, @0x3000, -".toList =
      some [.enc (.present 0x1000) 1 (.present 0x3000) .absent] ∧
    assemble Markers.defaultProfile "FEED -, ESC, 0xFF".toList =
      some [.decb .null 0xDB, .decb .null 0xFF] ∧
    assemble Markers.defaultProfile "DECB s0, 256".toList = none := by decide

/-- The result record of VT2, word by word from bits `[31:0]` up. -/
theorem test_result_record :
    (statResult ⟨true, .ESCAPED, 0x2000, 16, 1, 3⟩).encode =
      (0x00000000#32 ++ 0x00000003#32 ++ 0x00000001#32 ++ 0x00000010#32 ++ 0x00002000#32 ++
        0x00000000#32 ++ 0x00000000#32 ++ 0x00000028#32) := by decide

/-! ### One step of each command -/

/-- VB5: a rebind in ESCAPED discards the frame and clears `frame_len`. -/
theorem test_bind_rebind :
    left (exec (.bind s0 (.present 0x4000) 8) (fix true .ESCAPED 0x2000 16 3 5 [(0x2000, 1)])) =
      some ([⟨true, .IDLE, 0x4000, 8, 0, 0⟩], [(0x2000, 1)]) := by decide

/-- VB4: a bind of an absent buffer unbinds, though `n` is 16. -/
theorem test_bind_absent :
    left (exec (.bind s0 .absent 16) (fix true .ACTIVE 0x2000 16 3 5)) =
      some ([Session.reset], []) := by decide

/-- VS15: the unescaped byte is stored at the index before the increment. -/
theorem test_decb_store_then_advance :
    left (exec (.decb s0 0xDC) (fix true .ESCAPED 0x2000 2 1 0)) =
      some ([⟨true, .ACTIVE, 0x2000, 2, 2, 0⟩], [(0x2001, 0xC0)]) := by decide

/-- VS22: an invalid escape in a full buffer is ERROR, not OVERFLOW. -/
theorem test_decb_error_before_overflow :
    record (exec (.decb s0 0xFF) (fix true .ESCAPED 0x2000 2 2 0)) = some { outcome := .ERROR } := by
  decide

/-- VN9: DECN stops on the first COMPLETE. -/
theorem test_decn_stops :
    record (exec (.decn s0 (.present 0x1000) 5) (fix true .IDLE 0x2000 16 0 0
      [(0x1000, 0xC0), (0x1001, 0x41), (0x1002, 0xC0), (0x1003, 0x42), (0x1004, 0xC0)])) =
      some { outcome := .COMPLETE, length := 1, consumed := 3 } := by decide

/-- VN10: the overflow is on the code byte, after the ESC was consumed. -/
theorem test_decn_overflow :
    record (exec (.decn s0 (.present 0x1000) 5) (fix true .IDLE 0x2000 1 0 0
      [(0x1000, 0xC0), (0x1001, 0x11), (0x1002, 0xDB), (0x1003, 0xDC), (0x1004, 0xC0)])) =
      some { outcome := .OVERFLOW, consumed := 4 } := by decide

/-- VE9: two escapes. -/
theorem test_enc_escapes :
    (nextOf (exec (.enc (.present 0x1000) 2 (.present 0x3000) (.value 6))
        (fix false .IDLE 0 0 0 0 [(0x1000, 0xC0), (0x1001, 0xDB)]))).map
      (fun s => (s.results, s.mem.bytes 0x3000 7)) =
      some ([{ outcome := .COMPLETE, length := 6 }], [0xC0, 0xDB, 0xDC, 0xDB, 0xDD, 0xC0, 0]) := by
  decide

/-- VE11: the written prefix ends in a lone ESC. -/
theorem test_enc_lone_ESC :
    (nextOf (exec (.enc (.present 0x1000) 1 (.present 0x3000) (.value 2))
        (fix false .IDLE 0 0 0 0 [(0x1000, 0xDB)]))).map
      (fun s => (s.results, s.mem.bytes 0x3000 3)) =
      some ([{ outcome := .OVERFLOW }], [0xC0, 0xDB, 0]) := by decide

/-- VT2. -/
theorem test_stat :
    record (exec (.stat s0) (fix true .ESCAPED 0x2000 16 1 3)) =
      some { outcome := .CONTINUE, st_bound := true, st_state := .ESCAPED, st_base := 0x2000,
             st_cap := 16, st_widx := 1, st_flen := 3 } := by decide

/-- VT3. -/
theorem test_stat_null :
    record (exec (.stat .null) State.reset) = some { outcome := .ERROR } := by decide

/-- VC2, as the first command after reset. -/
theorem test_first_step :
    record (step (State.reset.withFetchWord 192 6)) = some { outcome := .ERROR } := by decide

/-- R39, R40: an address that ran past the top does not wrap, it faults. -/
theorem test_top_of_memory :
    memRead 0x100000000 State.reset = .memFault 0x100000000 State.reset ∧
    memRead 0xFFFFFFFF State.reset = .done 0 State.reset := by decide

/-! ### Witnesses: concrete states and operands that meet every hypothesis of a statement -/

theorem witness_EncodingInvertsCanonicalDecoding :
    (Descriptor.ofWords 0x00000301 0 0x2000 16 0 0).canonical = true ∧
      decode (Descriptor.ofWords 0x00000301 0 0x2000 16 0 0) = .ok (.bind s0 (.present 0x2000) 16) :=
  ⟨by decide, rfl⟩

/-- Two different descriptors that meet the hypotheses of `UnnamedFieldsAreIgnored`. -/
abbrev alike (d e : Descriptor) : Prop :=
  d ≠ e ∧ d.op = e.op ∧
    (d.op ∈ [0x01#8, 0x02#8, 0x03#8, 0x05#8] → d.hp = e.hp ∧ (d.hp = 1 → d.hidx = e.hidx)) ∧
    (d.op ∈ [0x01#8, 0x03#8, 0x04#8] → d.ap = e.ap ∧ (d.ap = 1 → d.a = e.a) ∧ d.n = e.n) ∧
    (d.op = 0x02 → d.byte = e.byte) ∧
    (d.op = 0x04 →
      d.bp = e.bp ∧ (d.bp = 1 → d.b = e.b) ∧ d.cp = e.cp ∧ (d.cp = 1 → d.c = e.c))

/-- For each opcode, and an undefined one, at the boundary of each clause: the index of a NULL handle,
the addresses of absent references, every reserved bit. -/
theorem witness_UnnamedFieldsAreIgnored :
    alike (Descriptor.ofWords 0x00000001 7 5 9 0 0) (Descriptor.ofWords 0x01FFFC01 8 6 9 1 1) ∧
    alike (Descriptor.ofWords 0x00C00102 3 0 0 0 0) (Descriptor.ofWords 0xFFC0FF02 3 1 1 1 1) ∧
    alike (Descriptor.ofWords 0x00000303 3 2 1 0 0) (Descriptor.ofWords 0x01FFFF03 3 2 1 1 1) ∧
    alike (Descriptor.ofWords 0x00000004 0 5 9 1 1) (Descriptor.ofWords 0x01FFF104 4 6 9 2 2) ∧
    alike (Descriptor.ofWords 0x00000E04 0 5 9 1 1) (Descriptor.ofWords 0x01FFFF04 4 5 9 1 1) ∧
    alike (Descriptor.ofWords 0x00000005 7 0 0 0 0) (Descriptor.ofWords 0xFFFFFE05 8 1 1 1 1) ∧
    alike (Descriptor.ofWords 0 0 0 0 0 0) (Descriptor.ofWords 0xFFFFFF00 1 1 1 1 1) := by
  refine ⟨?_, ?_, ?_, ?_, ?_, ?_, ?_⟩ <;> decide

/-- Each code is some record's. -/
theorem witness_ResultRecordLayout :
    Result.ok.outcome = .CONTINUE ∧ Result.error.outcome = .ERROR ∧
    ({ outcome := .COMPLETE } : Result).outcome = .COMPLETE ∧
    ({ outcome := .EMPTY } : Result).outcome = .EMPTY ∧
    ({ outcome := .OVERFLOW } : Result).outcome = .OVERFLOW ∧
    Result.ok.st_state = .IDLE ∧
    ({ outcome := .CONTINUE, st_state := .ACTIVE } : Result).st_state = .ACTIVE ∧
    ({ outcome := .CONTINUE, st_state := .ESCAPED } : Result).st_state = .ESCAPED := by decide

theorem witness_StepRunsThePresentedCommand :
    let s := given State.reset [.command (Descriptor.ofWords 0x00000105 0 0 0 0 0)]
    s.params.accepted s.nsess = true ∧
      s.pending = .command (Descriptor.ofWords 0x00000105 0 0 0 0 0) :: [] ∧
      decode (Descriptor.ofWords 0x00000105 0 0 0 0 0) = .ok (.stat s0) ∧
      decodeTableWord 192 0x105 = some (.stat s0) := ⟨by decide, by decide, rfl, by decide⟩

/-- The opcodes next to the defined ones, and the last. -/
theorem witness_UndefinedOpcodeReturnsError :
    State.reset.params.accepted State.reset.nsess = true ∧
    (∀ d rest, (given State.reset (.command d :: rest)).pending = .command d :: rest) ∧
    Descriptor.op 0 ∉ [0x01#8, 0x02#8, 0x03#8, 0x04#8, 0x05#8] ∧
    Descriptor.op 6 ∉ [0x01#8, 0x02#8, 0x03#8, 0x04#8, 0x05#8] ∧
    Descriptor.op 0x3FF ∉ [0x01#8, 0x02#8, 0x03#8, 0x04#8, 0x05#8] :=
  ⟨by decide, fun _ _ => rfl, by decide⟩

/-- One pair of equal markers at a time. -/
theorem witness_EqualMarkersAreRefused :
    ∀ p ∈ [marked 1 1 2 3, marked 1 2 1 3, marked 1 2 3 1, marked 1 2 2 3, marked 1 2 3 2,
        marked 1 2 3 3],
      let m := ({ State.reset with params := p } : State).params.markers
      m.END = m.ESC ∨ m.END = m.ESC_END ∨ m.END = m.ESC_ESC ∨ m.ESC = m.ESC_END ∨
        m.ESC = m.ESC_ESC ∨ m.ESC_END = m.ESC_ESC := by decide

/-- The hypothesis alone, and each way the conclusion comes out. -/
theorem witness_StepStopsOnlyOnMemFault :
    State.reset.params.accepted State.reset.nsess = true ∧
    step State.reset = .next State.reset ∧
    (sealed (given (fix true .ACTIVE 0 1 0 0) [.command (encode (.decb s0 5))])).params.accepted 1
      = true ∧
    step (sealed (given (fix true .ACTIVE 0 1 0 0) [.command (encode (.decb s0 5))])) =
      .fault (.memFault 0 (sealed (fix true .ACTIVE 0 1 0 0))) :=
  ⟨by decide, rfl, by decide, rfl⟩

theorem witness_ResetReachesTheResetValues :
    let s := given (fix true .ESCAPED 0x2000 4 1 3) [.reset]
    s.params.accepted s.nsess = true ∧ s.pending = .reset :: [] := by decide

/-- Both clauses; the store at both ends of memory. -/
theorem witness_BetweenCommandsStateIsHeld :
    State.reset.params.accepted State.reset.nsess = true ∧ State.reset.pending = [] ∧
    (given State.reset [.store 0 7]).pending = .store 0 7 :: [] ∧
    (given State.reset [.store 0xFFFFFFFF 7]).pending = .store 0xFFFFFFFF 7 :: [] ∧
    State.reset.mem.wf := by decide

/-- Both ends of memory, and a memory that reads like the state's. -/
theorem witness_MemoryIsPlain :
    State.reset.mem.wf ∧
    (∀ a ∈ [0, 0xFFFFFFFF], State.reset.allows a .R = true ∧ State.reset.allows a .W = true) ∧
    ∃ m : Memory, m.wf ∧ ∀ x, m.read x = State.reset.mem.read x :=
  ⟨by decide, by decide, [], by decide, fun _ => rfl⟩

theorem witness_StepKeepsTheInvariant :
    (given (fix true .ACTIVE 0 1 1 1) [.command (encode (.decb s0 0xC0))]).Inv ∧
    (nextOf (step (given (fix true .ACTIVE 0 1 1 1) [.command (encode (.decb s0 0xC0))]))).isSome ∧
    (sealed (given (fix true .ACTIVE 0 1 0 0) [.command (encode (.decb s0 5))])).Inv ∧
    step (sealed (given (fix true .ACTIVE 0 1 0 0) [.command (encode (.decb s0 5))])) =
      .fault (.memFault 0 (sealed (fix true .ACTIVE 0 1 0 0))) :=
  ⟨by decide, by decide, by decide, rfl⟩

theorem witness_StepKeepsTheParameters :
    step State.reset = .next State.reset ∧
    step (sealed (given (fix true .ACTIVE 0 1 0 0) [.command (encode (.decb s0 5))])) =
      .fault (.memFault 0 (sealed (fix true .ACTIVE 0 1 0 0))) := ⟨rfl, rfl⟩

theorem witness_EmptyIsNeverReturned :
    step (given State.reset [.command 0]) = .next (State.reset.respond Result.error) ∧
    (State.reset.respond Result.error).results =
      (given State.reset [.command 0]).results ++ [Result.error] := ⟨rfl, rfl⟩

/-- A command on session 0 beside session 1, and ENC, which names none. -/
theorem witness_SessionsAreIndependent :
    namedSession (.decb s0 5) (two .ACTIVE .IDLE) ≠ some 1 ∧
    namedSession (.enc .absent 0 .absent .absent) (two .ACTIVE .IDLE) ≠ some 0 := by decide

theorem witness_SessionsCommute :
    let s := two .ACTIVE .ACTIVE
    s.Inv ∧ s.bindsSession s0 0 ∧ s.bindsSession (.session 1) 1 ∧ 0 ≠ 1 ∧
      s.outputWritable 0 ∧ s.outputWritable 1 ∧
      apart (s.session 0).out_base.toNat (s.session 0).cap.toNat
        (s.session 1).out_base.toNat (s.session 1).cap.toNat := by decide

/-- By BIND, by ERROR and by OVERFLOW. -/
theorem witness_IdleIsReenteredOnlyByAbortOrBind :
    (answers (.bind s0 .absent 0) (fix true .ACTIVE 0x2000 2 1 0) Result.ok
        ((fix false .IDLE 0 0 0 0).respond Result.ok)) ∧
    (answers (.decb s0 0xC0) (fix true .ESCAPED 0x2000 2 1 0) Result.error
        ((fix true .IDLE 0x2000 2 0 0).respond Result.error)) ∧
    (answers (.decb s0 0x41) (fix true .ACTIVE 0x2000 2 2 0) { outcome := .OVERFLOW }
        ((fix true .IDLE 0x2000 2 0 0).respond { outcome := .OVERFLOW })) ∧
    0 < (fix true .ACTIVE 0x2000 2 1 0).nsess ∧
    ((fix true .ACTIVE 0x2000 2 1 0).session 0).state ≠ .IDLE ∧
    ((fix true .ESCAPED 0x2000 2 1 0).session 0).state ≠ .IDLE ∧
    ((fix true .IDLE 0x2000 2 0 0).session 0).state = .IDLE :=
  ⟨⟨rfl, rfl⟩, ⟨rfl, rfl⟩, ⟨rfl, rfl⟩, by decide, by decide, by decide, by decide⟩

/-- The clauses in turn: BIND, COMPLETE, another outcome, and a command that names no session. -/
theorem witness_FrameLenIsLatchedOnComplete :
    (answers (.bind s0 .absent 0) (fix true .ACTIVE 0x2000 2 1 7) Result.ok
        ((fix false .IDLE 0 0 0 0).respond Result.ok)) ∧
    namedSession (.bind s0 .absent 0) (fix true .ACTIVE 0x2000 2 1 7) = some 0 ∧
    (answers (.decb s0 0xC0) (fix true .ACTIVE 0x2000 2 2 1) { outcome := .COMPLETE, length := 2 }
        ((fix true .ACTIVE 0x2000 2 0 2).respond { outcome := .COMPLETE, length := 2 })) ∧
    namedSession (.decb s0 0xC0) (fix true .ACTIVE 0x2000 2 2 1) = some 0 ∧
    (¬ ∃ h a n, Instr.decb s0 0xC0 = .bind h a n) ∧
    (answers (.decb s0 0xC0) (fix true .ACTIVE 0x2000 2 0 1) Result.ok
        ((fix true .ACTIVE 0x2000 2 0 1).respond Result.ok)) ∧
    namedSession (.enc .absent 0 .absent .absent) (fix true .ACTIVE 0x2000 2 0 1) ≠ some 0 ∧
    (answers (.enc .absent 0 .absent .absent) (fix true .ACTIVE 0x2000 2 0 1) Result.error
        ((fix true .ACTIVE 0x2000 2 0 1).respond Result.error)) ∧
    0 < (fix true .ACTIVE 0x2000 2 2 1).nsess :=
  ⟨⟨rfl, rfl⟩, by decide, ⟨rfl, rfl⟩, by decide, by simp, ⟨rfl, rfl⟩, by decide, ⟨rfl, rfl⟩,
    by decide⟩

theorem witness_OnlyBindChangesTheBinding :
    (¬ ∃ h a n, Instr.stat s0 = .bind h a n) ∧
    exec (.stat .null) State.reset = .next (State.reset.respond Result.error) ∧
    (¬ ∃ h a n, Instr.decb s0 5 = .bind h a n) ∧
    exec (.decb s0 5) (sealed (fix true .ACTIVE 0 1 0 0)) =
      .fault (.memFault 0 (sealed (fix true .ACTIVE 0 1 0 0))) :=
  ⟨by simp, rfl, by simp, rfl⟩

/-- The last valid index, the first invalid one, and the largest. -/
theorem witness_InvalidHandleReturnsError :
    (1#32).toNat < (two .IDLE .IDLE).nsess ∧ (two .IDLE .IDLE).nsess ≤ (2#32).toNat ∧
      (two .IDLE .IDLE).nsess ≤ (0xFFFFFFFF#32).toNat := by decide

/-- A present buffer at address 0, an absent one, and an invalid handle. -/
theorem witness_BindResult :
    validSession s0 State.reset = some 0 ∧ Ref.present 0 = .present 0 ∧
    validSession (.session 1) State.reset = none := by decide

theorem witness_StatResult :
    validSession s0 State.reset = some 0 ∧ validSession .null State.reset = none := by decide

/-- An invalid handle, an unbound session, an absent buffer. -/
theorem witness_DecodePreChecks :
    validSession (.session 1) State.reset = none ∧
    (validSession s0 State.reset = some 0 ∧ (State.reset.session 0).bound = false) ∧
    Ref.absent = .absent := by decide

theorem witness_DecbInIdle :
    let s := fix true .IDLE 0x2000 2 0 0
    s.bindsSession s0 0 ∧ (s.session 0).state = .IDLE ∧ 0xC0 = s.params.markers.END ∧
      0xDB ≠ s.params.markers.END := by decide

/-- `widx` 0 and `widx` the capacity. -/
theorem witness_DecbFrameEnd :
    ((fix true .ACTIVE 0x2000 2 0 0).bindsSession s0 0 ∧
      ((fix true .ACTIVE 0x2000 2 0 0).session 0).state = .ACTIVE ∧
      ((fix true .ACTIVE 0x2000 2 0 0).session 0).widx = 0) ∧
    (fix true .ACTIVE 0x2000 2 2 0).bindsSession s0 0 ∧
      ((fix true .ACTIVE 0x2000 2 2 0).session 0).state = .ACTIVE ∧
      ((fix true .ACTIVE 0x2000 2 2 0).session 0).widx ≠ 0 := by decide

/-- A full session: no capacity check on an ESC (VS9). -/
theorem witness_DecbEscapeIntroducer :
    let s := fix true .ACTIVE 0x2000 2 2 0
    s.params.markers.distinct = true ∧ s.bindsSession s0 0 ∧ (s.session 0).state = .ACTIVE := by
  decide

/-- `widx = cap`, also at 0 (VS11); `widx = cap - 1`, writable and not. -/
theorem witness_DecbLiteral :
    (∀ s ∈ [fix true .ACTIVE 0x2000 0 0 0, fix true .ACTIVE 0x2000 2 2 0,
        fix true .ACTIVE 0x2000 2 1 0, sealed (fix true .ACTIVE 0x2000 2 1 0)],
      s.bindsSession s0 0 ∧ (s.session 0).state = .ACTIVE ∧ 0x41 ≠ s.params.markers.END ∧
        0x41 ≠ s.params.markers.ESC) ∧
    ((fix true .ACTIVE 0x2000 0 0 0).session 0).widx = 0 ∧
    ((fix true .ACTIVE 0x2000 2 2 0).session 0).widx = 2 ∧
    ((fix true .ACTIVE 0x2000 2 1 0).session 0).widx < 2 ∧
    (fix true .ACTIVE 0x2000 2 1 0).allows 0x2001 .W = true ∧
    (sealed (fix true .ACTIVE 0x2000 2 1 0)).allows 0x2001 .W = false := by decide

/-- The same boundaries in ESCAPED, both codes, and a byte that is neither. -/
theorem witness_DecbEscaped :
    (∀ s ∈ [fix true .ESCAPED 0x2000 2 2 0, fix true .ESCAPED 0x2000 2 1 0,
        sealed (fix true .ESCAPED 0x2000 2 1 0)],
      s.params.markers.distinct = true ∧ s.bindsSession s0 0 ∧ (s.session 0).state = .ESCAPED ∧
        0xDC = s.params.markers.ESC_END ∧ 0xC0 = s.params.markers.END ∧
        0xDD = s.params.markers.ESC_ESC ∧ 0xDB = s.params.markers.ESC ∧
        0xFF ≠ s.params.markers.ESC_END ∧ 0xFF ≠ s.params.markers.ESC_ESC) ∧
    ((fix true .ESCAPED 0x2000 2 2 0).session 0).widx = 2 ∧
    ((fix true .ESCAPED 0x2000 2 1 0).session 0).widx < 2 ∧
    (fix true .ESCAPED 0x2000 2 1 0).allows 0x2001 .W = true ∧
    (sealed (fix true .ESCAPED 0x2000 2 1 0)).allows 0x2001 .W = false := by decide

theorem witness_OneByteOneOutcome :
    let s := fix true .ACTIVE 0x2000 2 2 0
    s.Inv ∧ s.bindsSession s0 0 ∧
      answers (.decb s0 0xC0) s { outcome := .COMPLETE, length := 2 }
        ((fix true .ACTIVE 0x2000 2 0 2).respond { outcome := .COMPLETE, length := 2 }) :=
  ⟨by decide, by decide, rfl, rfl⟩

/-- A frame of one byte and a frame of `cap` bytes. -/
theorem witness_DeliveredLengthIsWithinCapacity :
    (fix true .ACTIVE 0x2000 2 1 0).Inv ∧ (fix true .ACTIVE 0x2000 2 1 0).bindsSession s0 0 ∧
    answers (.decb s0 0xC0) (fix true .ACTIVE 0x2000 2 1 0) { outcome := .COMPLETE, length := 1 }
        ((fix true .ACTIVE 0x2000 2 0 1).respond { outcome := .COMPLETE, length := 1 }) ∧
    (fix true .ACTIVE 0x2000 2 2 0 [(0x1000, 0xC0)]).Inv ∧
    answers (.decn s0 (.present 0x1000) 1) (fix true .ACTIVE 0x2000 2 2 0 [(0x1000, 0xC0)])
        { outcome := .COMPLETE, length := 2, consumed := 1 }
        ((fix true .ACTIVE 0x2000 2 0 2 [(0x1000, 0xC0)]).respond
          { outcome := .COMPLETE, length := 2, consumed := 1 }) :=
  ⟨by decide, by decide, ⟨rfl, rfl⟩, by decide, rfl, rfl⟩

theorem witness_DecnCompletes :
    let s := fix true .IDLE 0x2000 2 0 0
    s.Inv ∧ s.bindsSession s0 0 ∧ s.canRead (0x1000#32).toNat (3#32).toNat ∧ s.outputWritable 0 := by
  decide

/-- A shorter DECN that faults, one that stops, and one that returns CONTINUE before a byte that may
be read. -/
theorem witness_DecnIsDecbRepeated :
    (fix true .IDLE 0x2000 2 0 0).bindsSession s0 0 ∧ 1 + 1 < addressLimit ∧
    exec (.decn s0 (.present 0x1000) 1) (sealed (fix true .IDLE 0x2000 2 0 0)) =
      .fault (.memFault 0x1000 (sealed (fix true .IDLE 0x2000 2 0 0))) ∧
    exec (.decn s0 (.present 0x1000) 1) (fix true .ACTIVE 0x2000 0 0 0) =
      .next ((fix true .IDLE 0x2000 0 0 0).respond { outcome := .OVERFLOW, consumed := 1 }) ∧
    exec (.decn s0 (.present 0x1000) 1) (fix true .IDLE 0x2000 2 0 0) =
      .next ((fix true .IDLE 0x2000 2 0 0).respond { outcome := .CONTINUE, consumed := 1 }) ∧
    (fix true .IDLE 0x2000 2 0 0).allows (0x1000 + 1) .R = true ∧
    (fix true .IDLE 0x2000 2 0 0).allows (0xFFFFFFFF + 1) .R = false :=
  ⟨by decide, by decide, rfl, rfl, rfl, by decide, by decide⟩

theorem witness_DecodeFrame :
    (fix true .ACTIVE 0x2000 2 1 0).Inv ∧ (fix true .ACTIVE 0x2000 2 1 0).bindsSession s0 0 ∧
    exec (.decb s0 5) (fix true .ACTIVE 0x2000 2 1 0) =
      .next ((fix true .ACTIVE 0x2000 2 2 0 [(0x2001, 5)]).respond Result.ok) ∧
    exec (.decb s0 5) (sealed (fix true .ACTIVE 0x2000 2 1 0)) =
      .fault (.memFault 0x2001 (sealed (fix true .ACTIVE 0x2000 2 1 0))) :=
  ⟨by decide, by decide, rfl, rfl⟩

/-- CONTINUE over every byte, and a stop on the last one. -/
theorem witness_DecnReducesToRun :
    let s := fix true .IDLE 0x2000 2 0 0
    s.Inv ∧ s.bindsSession s0 0 ∧
    apart (0x1000#32).toNat (2#32).toNat (s.session 0).out_base.toNat (s.session 0).cap.toNat ∧
    answers (.decn s0 (.present 0x1000) 2) s { outcome := .CONTINUE, consumed := 2 }
      (s.respond { outcome := .CONTINUE, consumed := 2 }) ∧
    answers (.decn s0 (.present 0x1000) 1) (fix true .ACTIVE 0x2000 0 0 0)
      { outcome := .OVERFLOW, consumed := 1 }
      ((fix true .IDLE 0x2000 0 0 0).respond { outcome := .OVERFLOW, consumed := 1 }) :=
  ⟨by decide, by decide, by decide, ⟨rfl, rfl⟩, rfl, rfl⟩

theorem witness_FeedReducesToRun :
    let s := given (fix true .IDLE 0x2000 2 0 0) (presented (feed s0 [0xC0, 0x41, 0xC0]) ++ [.reset])
    s.Inv ∧ s.bindsSession s0 0 ∧ s.outputWritable 0 ∧
      s.pending = presented (feed s0 [0xC0, 0x41, 0xC0]) ++ [.reset] := by decide

/-- A wire sequence of three bytes in two chunks. -/
theorem witness_ChunkSizeIndependence :
    let m : Memory := [(0x1000, 0xC0), (0x1001, 0x41), (0x1002, 0xC0)]
    let s := given (fix true .IDLE 0x2000 2 0 0 m) (presented (feed s0 [0xC0, 0x41, 0xC0]))
    s.Inv ∧ s.bindsSession s0 0 ∧
      s.pending = presented (feed s0 (s.mem.bytes 0x1000 [1, 2].sum)) ∧
      0x1000 + [1, 2].sum < addressLimit ∧ s.canRead 0x1000 [1, 2].sum ∧ s.outputWritable 0 ∧
      apart 0x1000 [1, 2].sum (s.session 0).out_base.toNat (s.session 0).cap.toNat := by decide

/-- Bulk decoding reaches an end. -/
theorem witness_BulkDecoded : ∃ s t, BulkDecoded s0 0x1000 [2] s t :=
  ⟨_, _, .chunk 0x1000 2 [] (fix true .IDLE 0x2000 2 0 0)
    ((fix true .IDLE 0x2000 2 0 0).respond { outcome := .CONTINUE, consumed := 2 }) _
    { outcome := .CONTINUE, consumed := 2 } (by decide) (by decide) ⟨rfl, rfl⟩ (.done _ _)⟩

theorem witness_FramesAreInjective :
    Markers.defaultProfile.distinct = true ∧
      frame Markers.defaultProfile [0xC0] = frame Markers.defaultProfile [0xC0] := by decide

/-- The two start states; the empty payload and a payload that fills the buffer. -/
theorem witness_RunOverAFrameDeliversIt :
    ∀ s ∈ [fix true .IDLE 0x2000 2 0 0, fix true .ACTIVE 0x2000 2 0 1],
      s.Inv ∧ s.bindsSession s0 0 ∧ s.outputWritable 0 ∧
        (∀ P ∈ [([] : List Byte), [0xC0, 0x41]], P.length ≤ (s.session 0).cap.toNat) ∧
        ((s.session 0).state = .IDLE ∨
          ((s.session 0).state = .ACTIVE ∧ (s.session 0).widx = 0)) := by decide

/-- A payload with an escape, a capacity of exactly `L(P)`, a session with exactly its length. -/
theorem witness_DecodingInvertsEncodingOfPayloads :
    let s := fix true .IDLE 0x2000 1 0 0 [(0x1000, 0xC0)]
    let P : List Byte := [0xC0]
    s.Inv ∧ s.bindsSession s0 0 ∧ P ≠ [] ∧ P.length = (1#32).toNat ∧
      s.mem.bytes (0x1000#32).toNat (1#32).toNat = P ∧
      requiredLength s.params.markers P = (4#32).toNat ∧ (4#32).toNat ≤ (4#32).toNat ∧
      (1#32).toNat ≤ (s.session 0).cap.toNat ∧
      ((s.session 0).state = .IDLE ∨
        ((s.session 0).state = .ACTIVE ∧ (s.session 0).widx = 0)) ∧
      s.canRead (0x1000#32).toNat (1#32).toNat ∧ s.canWrite (0x3000#32).toNat (4#32).toNat ∧
      s.canRead (0x3000#32).toNat (4#32).toNat ∧ s.outputWritable 0 ∧
      apart (0x1000#32).toNat (1#32).toNat (0x3000#32).toNat (4#32).toNat ∧
      apart (0x3000#32).toNat (4#32).toNat (s.session 0).out_base.toNat (s.session 0).cap.toNat := by
  decide

theorem witness_ResynchronisesAfterGarbage :
    let s := fix true .IDLE 0x2000 2 0 0
    s.Inv ∧ s.bindsSession s0 0 ∧ s.outputWritable 0 ∧
      ([0xDC, 0xDD] : List Byte).length ≤ (s.session 0).cap.toNat ∧
      ([0xDC, 0xDD] : List Byte) ≠ [] ∧ (s.session 0).state = .IDLE ∧
      s.params.markers.END ∉ ([0xDB, 0xDC] : List Byte) := by decide

/-- The source's bytes, on a capacity of 1. -/
theorem witness_SharedBoundaryDeliversBothFrames :
    let s := fix true .IDLE 0x2000 1 0 0
    s.Inv ∧ s.bindsSession s0 0 ∧ s.outputWritable 0 ∧ 1 ≤ (s.session 0).cap.toNat ∧
      (s.session 0).state = .IDLE ∧ 0x0A ≠ s.params.markers.END ∧ 0x0A ≠ s.params.markers.ESC ∧
      0x0B ≠ s.params.markers.END ∧ 0x0B ≠ s.params.markers.ESC := by decide

/-- A payload of `cap + 1` bytes, also for a capacity of 0. -/
theorem witness_CapacityBoundary :
    (∀ s ∈ [fix true .IDLE 0x2000 0 0 0, fix true .ACTIVE 0x2000 0 0 0],
      s.Inv ∧ s.bindsSession s0 0 ∧ s.outputWritable 0 ∧
        (s.session 0).cap.toNat < ([0xC0] : List Byte).length ∧
        ((s.session 0).state = .IDLE ∨
          ((s.session 0).state = .ACTIVE ∧ (s.session 0).widx = 0))) ∧
    ((fix true .IDLE 0x2000 2 0 0).session 0).cap.toNat < ([1, 2, 3] : List Byte).length := by decide

theorem witness_NoiseAfterAFrameIsDelivered :
    let s := fix true .ACTIVE 0x2000 2 0 1
    let g : List Byte := [0x99, 0x98]
    s.Inv ∧ s.bindsSession s0 0 ∧ s.outputWritable 0 ∧ g ≠ [] ∧
      g.length ≤ (s.session 0).cap.toNat ∧ (s.session 0).state = .ACTIVE ∧
      (s.session 0).widx = 0 ∧ s.params.markers.END ∉ g ∧ s.params.markers.ESC ∉ g := by decide

theorem witness_EndAfterEscLosesTheNextFrame :
    let s := fix true .ESCAPED 0x2000 2 1 0
    s.Inv ∧ s.bindsSession s0 0 ∧ (s.session 0).state = .ESCAPED := by decide

theorem witness_SourceErrorExample :
    let s := fix true .IDLE 0x2000 1 0 0
    s.Inv ∧ s.params.markers.admitExamples = true ∧ s.bindsSession s0 0 ∧ s.outputWritable 0 ∧
      1 ≤ (s.session 0).cap.toNat ∧ (s.session 0).state = .IDLE := by decide

/-- Each reference absent alone. -/
theorem witness_EncAbsentOperandReturnsError :
    ∀ x ∈ [(Ref.absent, Ref.present 0, Capacity.value 0), (Ref.present 0, Ref.absent, .value 0),
        (Ref.present 0, Ref.present 0, .absent)],
      x.1 = .absent ∨ x.2.1 = .absent ∨ x.2.2 = .absent := by decide

/-- VE2: a capacity of exactly `L(P)`. -/
theorem witness_EncWritesTheFrame :
    let s := fix false .IDLE 0 0 0 0 [(0x1000, 0xDB)]
    let P : List Byte := [0xDB]
    s.Inv ∧ P.length = (1#32).toNat ∧ s.mem.bytes (0x1000#32).toNat (1#32).toNat = P ∧
      requiredLength s.params.markers P ≤ (4#32).toNat ∧
      s.canRead (0x1000#32).toNat (1#32).toNat ∧
      s.canWrite (0x3000#32).toNat (requiredLength s.params.markers P) ∧
      apart (0x1000#32).toNat (1#32).toNat (0x3000#32).toNat
        (requiredLength s.params.markers P) := by decide

/-- Capacities of 0 and of `L(P) - 1`. -/
theorem witness_EncOverflowLeavesThePrefix :
    let s := fix false .IDLE 0 0 0 0 [(0x1000, 0xDB)]
    let P : List Byte := [0xDB]
    s.Inv ∧ P.length = (1#32).toNat ∧ s.mem.bytes (0x1000#32).toNat (1#32).toNat = P ∧
    ∀ c ∈ [0, 3], c < requiredLength s.params.markers P ∧
      (∀ i < (1#32).toNat, 1 + (frameBody s.params.markers (P.take i)).length ≤ c →
        s.allows ((0x1000#32).toNat + i) .R = true) ∧
      s.canWrite (0x3000#32).toNat c ∧
      apart (0x1000#32).toNat (1#32).toNat (0x3000#32).toNat c := by decide

/-- Capacities on both sides of `L(P)`, and of `2n + 2`. -/
theorem witness_EncSucceedsIffCapacitySuffices :
    let s := fix false .IDLE 0 0 0 0 [(0x1000, 0x41)]
    s.Inv ∧ ([0x41] : List Byte).length = (1#32).toNat ∧
      s.mem.bytes (0x1000#32).toNat (1#32).toNat = [0x41] ∧
      s.canRead (0x1000#32).toNat (1#32).toNat ∧
    ∀ c ∈ [2, 3, 4], s.canWrite (0x3000#32).toNat c ∧
      apart (0x1000#32).toNat (1#32).toNat (0x3000#32).toNat c := by decide

/-- Overlapping buffers, with a capacity of `2n + 2`. -/
theorem witness_EncCompletes :
    State.reset.canRead (0x1000#32).toNat (2#32).toNat ∧
      State.reset.canWrite (0x1001#32).toNat (6#32).toNat ∧
      2 * (2#32).toNat + 2 ≤ (6#32).toNat := by decide

/-- Capacities 0, 1 and 2. -/
theorem witness_EncEmptyPayload :
    State.reset.Inv ∧ ∀ c ∈ [0, 1, 2], State.reset.canWrite (0x3000#32).toNat (min 2 c) := by decide

/-- Overlapping buffers: the payload is the byte the leading END is written to (R44). -/
theorem witness_EncSeesItsOwnEarlierWrites :
    let s := fix false .IDLE 0 0 0 0 [(0x1000, 0x41)]
    s.Inv ∧
      answers (.enc (.present 0x1000) 1 (.present 0x1000) (.value 4)) s
        { outcome := .COMPLETE, length := 4 }
        ((fix false .IDLE 0 0 0 0 [(0x1000, 0xC0), (0x1001, 0xDB), (0x1002, 0xDC),
          (0x1003, 0xC0)]).respond { outcome := .COMPLETE, length := 4 }) :=
  ⟨by decide, rfl, rfl⟩

theorem witness_EncFrame :
    State.reset.Inv ∧
    exec (.enc .absent 0 .absent .absent) State.reset = .next (State.reset.respond Result.error) ∧
    (sealed State.reset).Inv ∧
    exec (.enc (.present 0) 0 (.present 8) (.value 2)) (sealed State.reset) =
      .fault (.memFault 8 (sealed State.reset)) := ⟨by decide, rfl, by decide, rfl⟩

/-- The hypotheses of `EncFaultsOnTheFirstRefusedByte` on the payload, with the output at `o`. -/
abbrev seenBy (s : State) (P : List Byte) (p n o : Nat) : Prop :=
  s.Inv ∧ P.length = n ∧ ∀ i < n, P[i]? = some (
    if o ≤ p + i ∧ p + i < o + 1 + (frameBody s.params.markers (P.take i)).length
    then (frame s.params.markers P).getD (p + i - o) 0
    else s.mem.read (p + i))

/-- A payload read refused at the first byte and at a later one, each at exactly the capacity; an
output write refused at the first byte, at the last below the capacity, and at the last of the frame;
and overlapping buffers, where the payload byte read is the END just written. -/
theorem witness_EncFaultsOnTheFirstRefusedByte :
    let s := fix false .IDLE 0 0 0 0 [(0x1000, 0xC0), (0x1001, 0x41)]
    let P : List Byte := [0xC0, 0x41]
    let r0 := within s [⟨0x3000, 8, true, true⟩]
    let r1 := within s [⟨0x1000, 1, true, false⟩, ⟨0x3000, 8, true, true⟩]
    let w (k : Nat) := within s [⟨0x1000, 2, true, false⟩, ⟨0x3000, k, true, true⟩]
    (seenBy r0 P 0x1000 2 0x3000 ∧ r0.allows (0x1000 + 0) .R = false ∧
      1 + (frameBody r0.params.markers (P.take 0)).length ≤ (1#32).toNat ∧ r0.canRead 0x1000 0 ∧
      r0.canWrite 0x3000 (1 + (frameBody r0.params.markers (P.take 0)).length)) ∧
    (seenBy r1 P 0x1000 2 0x3000 ∧ r1.allows (0x1000 + 1) .R = false ∧
      1 + (frameBody r1.params.markers (P.take 1)).length ≤ (3#32).toNat ∧ r1.canRead 0x1000 1 ∧
      r1.canWrite 0x3000 (1 + (frameBody r1.params.markers (P.take 1)).length)) ∧
    (∀ k ∈ [0, 2, 4], seenBy (w k) P 0x1000 2 0x3000 ∧
      k < (frame (w k).params.markers P).length ∧ (w k).allows (0x3000 + k) .W = false ∧
      k < k + 1 ∧ (w k).canWrite 0x3000 k ∧
      (∀ i < 2, 1 + (frameBody (w k).params.markers (P.take i)).length ≤ k →
        (w k).allows (0x1000 + i) .R = true)) ∧
    seenBy s [0xC0] 0x1001 1 0x1001 := by
  refine ⟨?_, ?_, ?_, ?_⟩ <;> decide

end Sys2Proof.Tests
end

section
/-! Parameter sets that break R9. -/

namespace Sys2Proof.Machine

/-- The check of R9 as a proposition: each of the six pairs of markers differs. -/
theorem markers_distinct_iff (m : Markers) :
    m.distinct = true ↔
      m.END ≠ m.ESC ∧ m.END ≠ m.ESC_END ∧ m.END ≠ m.ESC_ESC ∧
        m.ESC ≠ m.ESC_END ∧ m.ESC ≠ m.ESC_ESC ∧ m.ESC_END ≠ m.ESC_ESC := by
  simp [Markers.distinct, and_assoc]

/-- An accepted parameter set passes the check of R9. -/
theorem distinct_of_accepted {p : Params} {n : Nat} (h : p.accepted n = true) :
    p.markers.distinct = true :=
  (Bool.and_eq_true_iff.mp h).1

/-- A parameter set that is not accepted is refused whatever the input is (R8, R9). -/
theorem step_of_not_accepted {s : State} (h : ¬ s.params.accepted s.nsess = true) :
    step s = .refused .badParameters :=
  if_neg h

/-- Settles O8: an accepted set has six unequal pairs, and each case of the hypothesis names one of
them as equal. -/
theorem equalMarkersAreRefused : Obligations.EqualMarkersAreRefused := by
  intro s heq
  refine step_of_not_accepted fun hacc => ?_
  obtain ⟨h₁, h₂, h₃, h₄, h₅, h₆⟩ := (markers_distinct_iff _).mp (distinct_of_accepted hacc)
  obtain h | h | h | h | h | h := heq
  · exact h₁ h
  · exact h₂ h
  · exact h₃ h
  · exact h₄ h
  · exact h₅ h
  · exact h₆ h

end Sys2Proof.Machine
end

section
/-! What a handle and an opcode that name nothing do (30_encoding.md R62, R67). -/

namespace Sys2Proof.Machine

variable {s : State} {d : Descriptor} {rest : List Input}

/-! ### Undefined opcodes -/

/-- Under accepted parameters the next command is taken off the queue and performed (R63). -/
theorem step_of_command (hacc : s.params.accepted s.nsess = true)
    (hp : s.pending = .command d :: rest) :
    step s = performCommand d { s with pending := rest } := by
  rw [step, if_pos hacc, performInput, hp]

/-- The opcodes outside the table are the ones the decoder rejects (R64, R67). -/
theorem decode_of_undefined (hop : d.op ∉ [0x01#8, 0x02#8, 0x03#8, 0x04#8, 0x05#8]) :
    decode d = .error (.undefinedOpcode d.op) := by
  simp only [List.mem_cons, List.not_mem_nil, or_false, not_or] at hop
  obtain ⟨h₁, h₂, h₃, h₄, h₅⟩ := hop
  exact (if_neg h₁).trans <| (if_neg h₂).trans <| (if_neg h₃).trans <|
    (if_neg h₄).trans (if_neg h₅)

/-- A descriptor the decoder rejects is answered with ERROR and has no effect (R67). -/
theorem performCommand_of_decode_error {e : DecodeError} (h : decode d = .error e) (s : State) :
    performCommand d s = returns Result.error s := by
  rw [performCommand, h, execUndefined]

/-- Settles O7: the step performs the command, and the decoder rejects its opcode. -/
theorem undefinedOpcodeReturnsError : Obligations.UndefinedOpcodeReturnsError := by
  intro s d rest hacc hp hop
  rw [step_of_command hacc hp, performCommand_of_decode_error (decode_of_undefined hop)]
  rfl

/-! ### Invalid handles -/

/-- The invalid handles: NULL, and every index past the last session (R62). -/
theorem validSession_eq_none_iff {h : Handle} :
    validSession h s = none ↔ h = .null ∨ ∃ k : Word, h = .session k ∧ s.nsess ≤ k.toNat := by
  cases h with
  | null => simp [validSession]
  | session k => simp [validSession]

/-- A command other than ENC that names no session is answered with ERROR and has no effect: all the
other things a command can do need a session (R62). -/
theorem exec_of_namedSession_none {i : Instr} (hn : namedSession i s = none)
    (hi : ∀ a n b c, i ≠ .enc a n b c) : exec i s = returns Result.error s := by
  obtain h | ⟨_, _, _, _, _, hk, _⟩ | ⟨_, _, _, hk, _⟩ | ⟨_, _, _, _, hk, _⟩ |
    ⟨_, _, _, _, _, hk, _⟩ | ⟨p, n, o, c, henc, _⟩ := exec_cases i s
  · exact h
  · simp [hn] at hk
  · simp [hn] at hk
  · simp [hn] at hk
  · simp [hn] at hk
  · exact absurd henc (hi _ _ _ _)

/-- Settles O24: the four commands with a handle name the session of that handle, and an invalid
handle has none. -/
theorem invalidHandleReturnsError : Obligations.InvalidHandleReturnsError := by
  refine ⟨fun _ => rfl, fun s k hk => validSession_eq_some_iff.2 ⟨k, rfl, rfl, hk⟩, ?_⟩
  intro s h a n b hinv i hi
  have hnone : validSession h s = none := validSession_eq_none_iff.2 hinv
  simp only [List.mem_cons, List.not_mem_nil, or_false] at hi
  obtain rfl | rfl | rfl | rfl := hi <;> exact exec_of_namedSession_none hnone (by simp)

end Sys2Proof.Machine
end

section
/-! What BIND and STAT do, and the pre-checks of DECB and DECN (40_decoder.md R75, R78, R100). -/

namespace Sys2Proof.Machine

variable {s : State} {h : Handle} {k : Nat}

/-! ### BIND and STAT -/

/-- BIND on a valid handle rewrites its session whole (R75). -/
theorem exec_bind (hv : validSession h s = some k) (a : Ref) (n : Word) :
    exec (.bind h a n) s = returns Result.ok (s.setSession k (bindSession a n)) := by
  simp only [exec, execBind, hv]

/-- STAT on a valid handle reports its session, bound or not (R100). -/
theorem exec_stat (hv : validSession h s = some k) :
    exec (.stat h) s = returns (statResult (s.session k)) s := by
  simp only [exec, execStat, hv]

/-- Settles O25: a valid handle runs BIND, whose session depends on the buffer reference alone, and
an invalid one names no session. -/
theorem bindResult : Obligations.BindResult := by
  intro s h a n
  refine ⟨?_, ?_, fun hv => ?_⟩
  · rintro k base hv rfl
    exact exec_bind hv (.present base) n
  · rintro k hv rfl
    exact exec_bind hv .absent n
  · exact exec_of_namedSession_none hv (by simp)

/-- Settles O26: the record of STAT is read off the session, and an invalid handle names none. (The
model's own `statResult` is that record.) -/
theorem statResult_holds : Obligations.StatResult := by
  intro s h
  exact ⟨fun k hv => exec_stat hv, fun hv => exec_of_namedSession_none hv (by simp)⟩

/-! ### The pre-checks -/

/-- A handle names no session that DECB or DECN may work on when it is invalid, or when its session
is unbound (R78). -/
theorem boundSession_eq_none_iff :
    boundSession h s = none ↔
      validSession h s = none ∨ ∃ k, validSession h s = some k ∧ (s.session k).bound = false := by
  unfold boundSession
  cases validSession h s with
  | none => simp
  | some j => simp

/-- DECB without a bound session is answered with ERROR and has no effect (R78). -/
theorem exec_decb_of_boundSession_none (hb : boundSession h s = none) (b : Byte) :
    exec (.decb h b) s = returns Result.error s := by
  simp only [exec, execDecb, hb]

/-- DECN without a bound session is answered with ERROR and has no effect (R78). -/
theorem exec_decn_of_boundSession_none (hb : boundSession h s = none) (a : Ref) (n : Word) :
    exec (.decn h a n) s = returns Result.error s := by
  simp only [exec, execDecn, hb]

/-- DECN without an input buffer is answered with ERROR and has no effect, bound session or not
(R78). -/
theorem exec_decn_absent (h : Handle) (n : Word) (s : State) :
    exec (.decn h .absent n) s = returns Result.error s := by
  cases hb : boundSession h s with
  | none => exact exec_decn_of_boundSession_none hb .absent n
  | some k => simp only [exec, execDecn, hb, refAddress]

/-- Settles O27: the first two causes leave no bound session, and the third is DECN's own. -/
theorem decodePreChecks : Obligations.DecodePreChecks := by
  intro s h a n b
  refine ⟨fun hpre => exec_decb_of_boundSession_none (boundSession_eq_none_iff.2 hpre) b, ?_⟩
  rintro (hinv | hunb | rfl)
  · exact exec_decn_of_boundSession_none (boundSession_eq_none_iff.2 (.inl hinv)) a n
  · exact exec_decn_of_boundSession_none (boundSession_eq_none_iff.2 (.inr hunb)) a n
  · exact exec_decn_absent h n s

end Sys2Proof.Machine
end

section
/-! The rows of the table of R79, one equation of `transition` each (40_decoder.md R80 to R90). -/

namespace Sys2Proof.Machine

variable {m : Markers} {x : Session} {b v : Byte}

/-- R80: END opens a frame. -/
theorem transition_idle_end (m : Markers) (hs : x.state = .IDLE) :
    transition m x m.END = .quiet { x with state := .ACTIVE, widx := 0 } := by
  simp [transition, stepIdle, hs]

/-- R81: noise is discarded. -/
theorem transition_idle_other (hs : x.state = .IDLE) (hb : b ≠ m.END) :
    transition m x b = .quiet x := by
  simp [transition, stepIdle, hs, hb]

/-- In ACTIVE, END ends the frame (R82, R83). -/
theorem transition_active_end (m : Markers) (hs : x.state = .ACTIVE) :
    transition m x m.END = stepFrameEnd x := by
  simp [transition, stepActive, hs]

/-- R82: an empty frame is silent. -/
theorem stepFrameEnd_empty (hw : x.widx = 0) : stepFrameEnd x = .quiet x :=
  if_pos hw

/-- R83: any other frame is complete. -/
theorem stepFrameEnd_complete (hw : x.widx ≠ 0) :
    stepFrameEnd x = ⟨{ x with frame_len := x.widx, widx := 0 }, none, .COMPLETE, x.widx⟩ :=
  if_neg hw

/-- R84: ESC announces a code byte. -/
theorem transition_active_esc (hs : x.state = .ACTIVE) (hm : m.ESC ≠ m.END) :
    transition m x m.ESC = .quiet { x with state := .ESCAPED } := by
  simp [transition, stepActive, hs, hm]

/-- R85, R86: a literal is a payload byte. -/
theorem transition_active_literal (hs : x.state = .ACTIVE) (hE : b ≠ m.END) (hS : b ≠ m.ESC) :
    transition m x b = storePayload x b := by
  simp [transition, stepActive, hs, hE, hS]

/-- R87: the two escape codes and what they stand for. -/
theorem unescape_eq_some_iff (hm : m.ESC_END ≠ m.ESC_ESC) :
    unescape m b = some v ↔ (b = m.ESC_END ∧ v = m.END) ∨ (b = m.ESC_ESC ∧ v = m.ESC) := by
  unfold unescape
  by_cases h₁ : b = m.ESC_END
  · simp [h₁, hm, eq_comm]
  · by_cases h₂ : b = m.ESC_ESC
    · simp [h₂, hm.symm, eq_comm]
    · simp [h₁, h₂]

/-- R87: every other byte is an invalid escape. -/
theorem unescape_eq_none (h₁ : b ≠ m.ESC_END) (h₂ : b ≠ m.ESC_ESC) : unescape m b = none :=
  (if_neg h₁).trans (if_neg h₂)

/-- R88, R89: an escape code brings the payload byte it stands for. -/
theorem transition_escaped_code (hs : x.state = .ESCAPED) (hc : unescape m b = some v) :
    transition m x b = storePayload x v := by
  simp only [transition, hs, stepEscaped, hc]

/-- R90: an invalid escape aborts the frame. -/
theorem transition_escaped_invalid (hs : x.state = .ESCAPED) (hc : unescape m b = none) :
    transition m x b = .aborting x .ERROR := by
  simp only [transition, hs, stepEscaped, hc]

/-- R86, R88: a payload byte with room for it is stored at the index before the increment. -/
theorem storePayload_of_lt (hw : x.widx < x.cap) (v : Byte) :
    storePayload x v = ⟨{ x with widx := x.widx + 1, state := .ACTIVE },
      some (x.byteAddress x.widx.toNat, v), .CONTINUE, 0⟩ :=
  if_pos hw

/-- R85, R89: a payload byte on a full buffer overflows. -/
theorem storePayload_of_full (hw : x.widx = x.cap) (v : Byte) :
    storePayload x v = .aborting x .OVERFLOW :=
  if_neg (by simp [hw])

end Sys2Proof.Machine
end

section
/-! DECB, case by case: what the transition of its byte makes of the whole state (40_decoder.md R77,
R79 to R91). -/

namespace Sys2Proof.Machine

variable {s : State} {h : Handle} {k : Nat} {b v : Byte}

/-! ### From a transition to the command -/

/-- A byte that stores nothing changes its session only, and returns its outcome and length. -/
theorem exec_decb_of_no_store {y : Session} {o : OutcomeCode} {len : Word}
    (hb : s.bindsSession h k)
    (ht : transition s.params.markers (s.session k) b = ⟨y, none, o, len⟩) :
    exec (.decb h b) s = returns (byteResult (o, len)) (s.setSession k y) := by
  simp only [exec_decb hb, feedByte, byteStep, ht, finish]

/-- A byte that changes nothing only appends its record. -/
theorem exec_decb_of_unchanged (hb : s.bindsSession h k)
    (ht : transition s.params.markers (s.session k) b = .quiet (s.session k)) :
    exec (.decb h b) s = returns Result.ok s := by
  rw [exec_decb_of_no_store hb ht, setSession_self]
  rfl

/-- A payload byte on a full buffer aborts the frame with OVERFLOW (R85, R89). -/
theorem exec_decb_overflow (hb : s.bindsSession h k)
    (ht : transition s.params.markers (s.session k) b = storePayload (s.session k) v)
    (hw : (s.session k).widx = (s.session k).cap) :
    exec (.decb h b) s =
      returns { outcome := .OVERFLOW } (s.setSession k (s.session k).abort) :=
  exec_decb_of_no_store hb (ht.trans (storePayload_of_full hw v))

/-- A payload byte with room for it and a writable address is stored there, and the session is
ACTIVE with the next index (R86, R88). -/
theorem exec_decb_store (hb : s.bindsSession h k)
    (ht : transition s.params.markers (s.session k) b = storePayload (s.session k) v)
    (hw : (s.session k).widx < (s.session k).cap)
    (ha : s.allows ((s.session k).byteAddress (s.session k).widx.toNat) .W = true) :
    exec (.decb h b) s = returns Result.ok
      ((s.poke ((s.session k).byteAddress (s.session k).widx.toNat) v).setSession k
        { s.session k with widx := (s.session k).widx + 1, state := .ACTIVE }) := by
  simp only [exec_decb hb, feedByte, byteStep, ht, storePayload_of_lt hw, memWrite_allowed ha,
    finish, byteResult, Result.ok]

/-- A payload byte with room for it but no writable address raises `MemFault` there, and the session
stays as it was (R40). -/
theorem exec_decb_store_refused (hb : s.bindsSession h k)
    (ht : transition s.params.markers (s.session k) b = storePayload (s.session k) v)
    (hw : (s.session k).widx < (s.session k).cap)
    (ha : s.allows ((s.session k).byteAddress (s.session k).widx.toNat) .W = false) :
    exec (.decb h b) s =
      .fault (.memFault ((s.session k).byteAddress (s.session k).widx.toNat) s) := by
  simp only [exec_decb hb, feedByte, byteStep, ht, storePayload_of_lt hw, memWrite_refused ha,
    finish]

/-! ### The statements -/

/-- Settles O28: neither row of IDLE stores a byte, and only END changes the session. -/
theorem decbInIdle : Obligations.DecbInIdle := by
  intro s h k b hb hs
  refine ⟨?_, fun hne => exec_decb_of_unchanged hb (transition_idle_other hs hne)⟩
  rintro rfl
  exact exec_decb_of_no_store hb (transition_idle_end _ hs)

/-- Settles O29: END in ACTIVE ends the frame, and the write index tells an empty one from a
complete one. -/
theorem decbFrameEnd : Obligations.DecbFrameEnd := by
  intro s h k hb hs
  have ht := transition_active_end s.params.markers hs
  exact ⟨fun hw => exec_decb_of_unchanged hb (ht.trans (stepFrameEnd_empty hw)),
    fun hw => exec_decb_of_no_store hb (ht.trans (stepFrameEnd_complete hw))⟩

/-- Settles O30: the transition on ESC looks at the state only, once ESC is not END. -/
theorem decbEscapeIntroducer : Obligations.DecbEscapeIntroducer := by
  intro s h k hm hb hs
  obtain ⟨hne, -⟩ := (markers_distinct_iff _).1 hm
  exact exec_decb_of_no_store hb (transition_active_esc hs hne.symm)

/-- Settles O31: a literal is a payload byte, and a session that was ACTIVE stays so when it is
stored. -/
theorem decbLiteral : Obligations.DecbLiteral := by
  intro s h k b hb hs hE hS
  have ht := transition_active_literal hs hE hS
  refine ⟨exec_decb_overflow hb ht, fun hw ha => ?_, exec_decb_store_refused hb ht⟩
  rw [exec_decb_store hb ht hw ha, ← hs]
  rfl

/-- Settles O32: an escape code is the payload byte it stands for, and any other byte aborts. -/
theorem decbEscaped : Obligations.DecbEscaped := by
  intro s h k b hm hb hs
  obtain ⟨-, -, -, -, -, hcodes⟩ := (markers_distinct_iff _).1 hm
  refine ⟨fun v hv => ?_, fun hE hS => ?_⟩
  · have ht := transition_escaped_code hs ((unescape_eq_some_iff hcodes).2 hv)
    exact ⟨exec_decb_store hb ht, exec_decb_store_refused hb ht, exec_decb_overflow hb ht⟩
  · exact exec_decb_of_no_store hb (transition_escaped_invalid hs (unescape_eq_none hE hS))

end Sys2Proof.Machine
end

section
/-! ENC without an operand and ENC of nothing (41_encoder.md R107, R115). -/

namespace Sys2Proof.Machine

variable {s : State} {o cap : Nat}

/-- ENC with both references and the capacity present is its frame (R106, R109). -/
theorem exec_enc (p n o c : Word) (s : State) :
    exec (.enc (.present p) n (.present o) (.value c)) s =
      finish (emitFrame p.toNat n.toNat o.toNat c.toNat s).result := rfl

/-- ENC without one of its references or its capacity is answered with ERROR and has no effect:
encoding needs all three (R107). -/
theorem exec_enc_absent {a b : Ref} {c : Capacity}
    (habs : a = .absent ∨ b = .absent ∨ c = .absent) (n : Word) (s : State) :
    exec (.enc a n b c) s = returns Result.error s := by
  obtain h | ⟨_, _, _, _, h, _⟩ | ⟨_, _, h, _⟩ | ⟨_, _, _, h, _⟩ | ⟨_, _, _, _, h, _⟩ |
    ⟨p, m, o, d, h, _⟩ := exec_cases (.enc a n b c) s
  · exact h
  · cases h
  · cases h
  · cases h
  · cases h
  · cases h
    simp at habs

/-- The caller's copy of C changes on COMPLETE only (R66). -/
theorem callersCapacity_of_ne {old : Word} {r : Result} (h : r.outcome ≠ .COMPLETE) :
    callersCapacity old r = old :=
  if_neg h

/-- Settles O52: ENC needs all three operands, and ERROR is not COMPLETE. -/
theorem encAbsentOperandReturnsError : Obligations.EncAbsentOperandReturnsError := by
  intro s a b c n old habs
  exact ⟨exec_enc_absent habs n s, callersCapacity_of_ne (by simp)⟩

/-- ENC of the empty payload is `Emit` of its frame, two END bytes, wherever the payload reference
points (R115). -/
theorem emitFrame_empty (p o cap : Nat) (s : State) :
    emitFrame p 0 o cap s = emitAll o cap [s.params.markers.END, s.params.markers.END] 0 s :=
  emitFrame_eq_of_seen (P := []) (fun _ hj => absurd hj (Nat.not_lt_zero _))

/-- Over writable storage the two END bytes are written as far as the capacity admits (R108,
R115). -/
theorem emitFrame_empty_of_writable (p : Nat) (hw : s.canWrite o (min 2 cap)) :
    emitFrame p 0 o cap s =
      if 2 ≤ cap then
        .going 2 { s with
          mem := s.mem.writeAll o [s.params.markers.END, s.params.markers.END] }
      else
        .full { s with
          mem := s.mem.writeAll o ([s.params.markers.END, s.params.markers.END].take cap) } := by
  rw [emitFrame_empty, emitAll_eq (Nat.zero_le _) fun j hj hc => hw j (by simp at hj; omega)]
  simp

/-- Settles O57: a capacity of 2 takes both END bytes, and a smaller one stops ENC at the first byte
that does not fit. -/
theorem encEmptyPayload : Obligations.EncEmptyPayload := by
  intro s p o c _ hw
  have henc : exec (.enc (.present p) 0 (.present o) (.value c)) s =
      finish (emitFrame p.toNat 0 o.toNat c.toNat s).result := exec_enc p 0 o c s
  rw [emitFrame_empty_of_writable p.toNat hw] at henc
  refine ⟨fun hc => ?_, fun hc => ?_, exec_enc_absent (.inl rfl) 0 s⟩
  · rw [henc, if_pos hc]
    rfl
  · rw [henc, if_neg (by omega)]
    obtain hc | hc : c.toNat = 0 ∨ c.toNat = 1 := by omega
    · rw [hc]; rfl
    · rw [hc]; rfl

end Sys2Proof.Machine
end

section
/-! Descriptors: the decoder and the encoder are inverse to each other on the canonical ones
(30_encoding.md R62 to R65), and the fields that a row of R65 does not name are ignored (R63). -/

namespace Sys2Proof

/-! ### The operands of a command, written into a descriptor and read back -/

section Operands

variable (op : BitVec 8) (hp ap bp cp : BitVec 1) (byte : Byte) (hidx w n b c : Word)

@[simp] theorem make_handle (h : Handle) :
    (Descriptor.make op h.hp ap bp cp byte h.hidx w n b c).handle = h := by
  cases h <;> simp [Descriptor.handle, Handle.hp, Handle.hidx]

@[simp] theorem make_refA (a : Ref) :
    (Descriptor.make op hp a.flag bp cp byte hidx a.addr n b c).refA = a := by
  cases a <;> simp [Descriptor.refA, Ref.flag, Ref.addr]

@[simp] theorem make_refB (a : Ref) :
    (Descriptor.make op hp ap a.flag cp byte hidx w n a.addr c).refB = a := by
  cases a <;> simp [Descriptor.refB, Ref.flag, Ref.addr]

@[simp] theorem make_capC (a : Capacity) :
    (Descriptor.make op hp ap bp a.flag byte hidx w n b a.amount).capC = a := by
  cases a <;> simp [Descriptor.capC, Capacity.flag, Capacity.amount]

end Operands

/-- A handle that is not present has index 0 in its descriptor (log 13). -/
theorem handle_hp_or_hidx (h : Handle) : h.hp = 1#1 ∨ h.hidx = 0#32 := by
  cases h <;> simp [Handle.hp, Handle.hidx]

/-- A reference that is not present has address 0 in its descriptor (log 13). -/
theorem ref_flag_or_addr (a : Ref) : a.flag = 1#1 ∨ a.addr = 0#32 := by
  cases a <;> simp [Ref.flag, Ref.addr]

/-- A capacity that is not present has value 0 in its descriptor (log 13). -/
theorem capacity_flag_or_amount (c : Capacity) : c.flag = 1#1 ∨ c.amount = 0#32 := by
  cases c <;> simp [Capacity.flag, Capacity.amount]

/-! ### The decoder after the encoder -/

theorem decode_encode (i : Instr) : decode (encode i) = .ok i := by
  cases i <;> simp [decode, encode]

/-- The encoder writes 0 where R63 asks for it, and where log 13 does. -/
theorem encode_canonical (i : Instr) : (encode i).canonical = true := by
  cases i <;>
    simp [Descriptor.canonical, Descriptor.absentFieldsZero, Descriptor.unnamedFieldsZero, encode,
      handle_hp_or_hidx, ref_flag_or_addr, capacity_flag_or_amount]

/-- Settles O2: the fields of a descriptor read back as the encoder wrote them, for each row of the
opcode table. -/
theorem decodingInvertsEncoding : Obligations.DecodingInvertsEncoding :=
  fun i => ⟨decode_encode i, encode_canonical i⟩

/-! ### The encoder after the decoder -/

variable {d : Descriptor} {i : Instr}

/-- The commands that a descriptor can decode to, one per row of the opcode table (R64). -/
theorem decode_ok_cases (h : decode d = .ok i) :
    (d.op = 0x01 ∧ i = .bind d.handle d.refA d.n) ∨
    (d.op = 0x02 ∧ i = .decb d.handle d.byte) ∨
    (d.op = 0x03 ∧ i = .decn d.handle d.refA d.n) ∨
    (d.op = 0x04 ∧ i = .enc d.refA d.n d.refB d.capC) ∨
    (d.op = 0x05 ∧ i = .stat d.handle) := by
  unfold decode at h
  split_ifs at h with h₁ h₂ h₃ h₄ h₅ <;> cases h <;> simp [*]

/-- The handle of a descriptor with no index beside a NULL handle has its two fields. -/
theorem handle_fields (h : d.hp = 1 ∨ d.hidx = 0) :
    d.handle.hp = d.hp ∧ d.handle.hidx = d.hidx := by
  unfold Descriptor.handle
  obtain h0 | h1 := BitVec.eq_zero_or_eq_one d.hp <;> simp_all [Handle.hp, Handle.hidx]

theorem refA_fields (h : d.ap = 1 ∨ d.a = 0) : d.refA.flag = d.ap ∧ d.refA.addr = d.a := by
  unfold Descriptor.refA
  obtain h0 | h1 := BitVec.eq_zero_or_eq_one d.ap <;> simp_all [Ref.flag, Ref.addr]

theorem refB_fields (h : d.bp = 1 ∨ d.b = 0) : d.refB.flag = d.bp ∧ d.refB.addr = d.b := by
  unfold Descriptor.refB
  obtain h0 | h1 := BitVec.eq_zero_or_eq_one d.bp <;> simp_all [Ref.flag, Ref.addr]

theorem capC_fields (h : d.cp = 1 ∨ d.c = 0) : d.capC.flag = d.cp ∧ d.capC.amount = d.c := by
  unfold Descriptor.capC
  obtain h0 | h1 := BitVec.eq_zero_or_eq_one d.cp <;> simp_all [Capacity.flag, Capacity.amount]

/-- Settles O3: a canonical descriptor is made of its fields, and each of them is either an operand
of the command it decodes to or 0. -/
theorem encodingInvertsCanonicalDecoding : Obligations.EncodingInvertsCanonicalDecoding := by
  intro d i hc hd
  simp only [Descriptor.canonical, Descriptor.absentFieldsZero, Bool.and_eq_true, Bool.or_eq_true,
    beq_iff_eq] at hc
  obtain ⟨⟨⟨h12, h24⟩, ⟨⟨hh, ha⟩, hb⟩, hcap⟩, hun⟩ := hc
  obtain ⟨hhp, hhidx⟩ := handle_fields hh
  obtain ⟨hap, haddr⟩ := refA_fields ha
  obtain ⟨hbp, hbaddr⟩ := refB_fields hb
  obtain ⟨hcp, hamount⟩ := capC_fields hcap
  refine Eq.trans ?_ (make_fields d h12 h24)
  obtain ⟨ho, rfl⟩ | ⟨ho, rfl⟩ | ⟨ho, rfl⟩ | ⟨ho, rfl⟩ | ⟨ho, rfl⟩ := decode_ok_cases hd <;>
    simp [Descriptor.unnamedFieldsZero, ho] at hun <;>
    simp [encode, *]

/-! ### Fields that the opcode's row does not name -/

/-- A handle is read off `hp`, and off `hidx` only when `hp = 1` (R62). -/
theorem handle_congr {e : Descriptor} (h : d.hp = e.hp ∧ (d.hp = 1 → d.hidx = e.hidx)) :
    d.handle = e.handle := by
  unfold Descriptor.handle
  rw [← h.1]
  exact ite_congr rfl (fun h1 => by rw [h.2 h1]) (fun _ => rfl)

theorem refA_congr {e : Descriptor} (hp : d.ap = e.ap) (ha : d.ap = 1 → d.a = e.a) :
    d.refA = e.refA := by
  unfold Descriptor.refA
  rw [← hp]
  exact ite_congr rfl (fun h1 => by rw [ha h1]) (fun _ => rfl)

theorem refB_congr {e : Descriptor} (hp : d.bp = e.bp) (hb : d.bp = 1 → d.b = e.b) :
    d.refB = e.refB := by
  unfold Descriptor.refB
  rw [← hp]
  exact ite_congr rfl (fun h1 => by rw [hb h1]) (fun _ => rfl)

theorem capC_congr {e : Descriptor} (hp : d.cp = e.cp) (hc : d.cp = 1 → d.c = e.c) :
    d.capC = e.capC := by
  unfold Descriptor.capC
  rw [← hp]
  exact ite_congr rfl (fun h1 => by rw [hc h1]) (fun _ => rfl)

/-- Settles O4: the decoder selects a row by the opcode, and then reads the operands of that row
only. -/
theorem unnamedFieldsAreIgnored : Obligations.UnnamedFieldsAreIgnored := by
  intro d e hop hh ha hbyte hbc
  unfold decode
  rw [← hop]
  split_ifs with h₁ h₂ h₃ h₄ h₅
  · obtain ⟨hap, haddr, hn⟩ := ha (by simp [h₁])
    rw [handle_congr (hh (by simp [h₁])), refA_congr hap haddr, hn]
  · rw [handle_congr (hh (by simp [h₂])), hbyte h₂]
  · obtain ⟨hap, haddr, hn⟩ := ha (by simp [h₃])
    rw [handle_congr (hh (by simp [h₃])), refA_congr hap haddr, hn]
  · obtain ⟨hap, haddr, hn⟩ := ha (by simp [h₄])
    obtain ⟨hbp, hbaddr, hcp, hamount⟩ := hbc h₄
    rw [refA_congr hap haddr, hn, refB_congr hbp hbaddr, capC_congr hcp hamount]
  · rw [handle_congr (hh (by simp [h₅]))]
  · rfl

/-- Settles O1: each of the thirteen descriptors is a literal, and decoding it is a computation. -/
theorem spelledDescriptorsDecode : Obligations.SpelledDescriptorsDecode := by
  refine ⟨?_, ?_, ?_, ?_, ?_, ?_, ?_, ?_, ?_, ?_, ?_, ?_, ?_⟩ <;> rfl

/-- Settles O51: the profile of R11 and the reset parameters are literals. -/
theorem defaultProfile : Obligations.DefaultProfile :=
  ⟨rfl, rfl, by decide, by decide⟩

end Sys2Proof

namespace Sys2Proof.Machine

/-! ### The result record -/

/-- Each field of the 256-bit record stands where R66 puts it, and the reserved bits are 0. -/
theorem result_encode_fields (r : Result) :
    r.encode.extractLsb' 0 3 = r.outcome.code ∧
    r.encode.extractLsb' 3 1 = BitVec.ofBool r.st_bound ∧
    r.encode.extractLsb' 4 2 = r.st_state.code ∧
    r.encode.extractLsb' 6 26 = 0 ∧
    r.encode.extractLsb' 32 32 = r.length ∧
    r.encode.extractLsb' 64 32 = r.consumed ∧
    r.encode.extractLsb' 96 32 = r.st_base ∧
    r.encode.extractLsb' 128 32 = r.st_cap ∧
    r.encode.extractLsb' 160 32 = r.st_widx ∧
    r.encode.extractLsb' 192 32 = r.st_flen ∧
    r.encode.extractLsb' 224 32 = 0 := by
  unfold Result.encode
  refine ⟨?_, ?_, ?_, ?_, ?_, ?_, ?_, ?_, ?_, ?_, ?_⟩ <;>
    simp only [BitVec.extractLsb'_append_eq_of_le, BitVec.extractLsb'_append_eq_right,
      BitVec.extractLsb'_eq_self, Nat.reduceLeDiff, Nat.reduceSub]

/-- Settles O5: the outcome and the state stand in the record as their codes, number by number. -/
theorem resultRecordLayout : Obligations.ResultRecordLayout := by
  intro r
  obtain ⟨ho, hb, hs, h6, hl, hc, hba, hca, hw, hf, h224⟩ := result_encode_fields r
  refine ⟨ho, hb, hs, h6, hl, hc, hba, hca, hw, hf, h224, ?_⟩
  rw [ho, hs]
  refine ⟨?_, ?_, ?_, ?_, ?_, ?_, ?_, ?_⟩ <;> intro h <;> rw [h] <;> rfl

end Sys2Proof.Machine
end

section
/-! The byte memory and its checked accesses (20_memory.md R39 to R41). -/

namespace Sys2Proof.Machine

variable {s : State} {a : Nat} {kind : AccessKind}

/-- The check passes exactly on the addresses of the space that `MEM_OK` grants (R40). -/
theorem allows_iff : s.allows a kind = true ↔ a < addressLimit ∧ memOk s.params a kind = true := by
  simp [State.allows]

/-- Settles O12: an allowed access is the plain read or write, and a memory in canonical form is
determined by its bytes. -/
theorem memoryIsPlain : Obligations.MemoryIsPlain := by
  intro s a v hm
  refine ⟨memRead_allowed, fun ha => ?_, fun m hm' hread => memory_ext hm' hm hread⟩
  exact ⟨s.poke a v, memWrite_allowed ha, write_wf hm (allows_lt ha), read_write_same hm,
    fun x hx => read_write_other hm hx, rfl, rfl, rfl, rfl⟩

/-- An access that faults names its own address and leaves the state alone (R40). -/
theorem memRead_eq_fault_iff {x : Nat} {l : State} :
    memRead a s = .memFault x l ↔ s.allows a .R = false ∧ x = a ∧ l = s := by
  cases h : s.allows a .R with
  | true => simp [memRead_allowed h]
  | false => simp [memRead_refused h, eq_comm]

theorem memWrite_eq_fault_iff {v : Byte} {x : Nat} {l : State} :
    memWrite a v s = .memFault x l ↔ s.allows a .W = false ∧ x = a ∧ l = s := by
  cases h : s.allows a .W with
  | true => simp [memWrite_allowed h]
  | false => simp [memWrite_refused h, eq_comm]

/-- Settles O13: a fault is the check's refusal, and the check is R40's. -/
theorem everyAccessIsChecked : Obligations.EveryAccessIsChecked := by
  intro s a v
  refine ⟨?_, ?_, fun x l h => (memRead_eq_fault_iff.1 h).2,
    fun x l h => (memWrite_eq_fault_iff.1 h).2⟩
  · rw [memRead_eq_fault_iff, ← allows_iff]
    simp
  · rw [memWrite_eq_fault_iff, ← allows_iff]
    simp

end Sys2Proof.Machine
end

section
/-! How every command ends: the state it leaves, with one more record or with the byte it faulted
on. The statements about all commands and about steps are read off `exec_ends`. -/

namespace Sys2Proof.Machine

variable {i : Instr} {s t u l : State} {k a n j : Nat}

/-! ### A fault is on a byte that fails the check -/

/-- `FRAMER` may not read, or may not write, the byte at an address (R40). -/
def State.refuses (s : State) (a : Nat) : Prop :=
  s.allows a .R = false ∨ s.allows a .W = false

theorem feedByte_refuses {b : Byte} {x : Nat} (h : feedByte k b s = .memFault x l) :
    l.refuses x := by
  unfold feedByte at h
  cases hb : byteStep k b s with
  | done ol t => simp [hb] at h
  | memFault y m =>
    obtain ⟨rfl, v, -, hal⟩ := byteStep_eq_fault_iff.1 hb
    simp only [hb, Attempt.memFault.injEq] at h
    obtain ⟨rfl, rfl⟩ := h
    exact .inr hal

theorem consume_refuses {x : Nat} (h : consume k a n j s = .memFault x l) : l.refuses x := by
  induction n generalizing j s with
  | zero => simp [consume] at h
  | succ n ih =>
    obtain ⟨hal, e⟩ | ⟨-, y, hb, e⟩ | ⟨-, len, t, -, e⟩ | ⟨-, o, len, t, -, -, e⟩ :=
      consume_succ_cases k a n j s <;> rw [e] at h
    · cases h
      exact .inl hal
    · cases h
      obtain ⟨-, v, -, hal⟩ := byteStep_eq_fault_iff.1 hb
      exact .inr hal
    · exact ih h
    · cases h

/-- An emission that faults, if at all, on a byte that fails the check. -/
def Emission.faultsOnRefused (e : Emission) : Prop :=
  ∀ x l, e = .memFault x l → l.refuses x

theorem Emission.faultsOnRefused.andThen {e : Emission} {f : Nat → State → Emission}
    (he : e.faultsOnRefused) (hf : ∀ k u, (f k u).faultsOnRefused) :
    (e.andThen f).faultsOnRefused := by
  cases e with
  | going k u => exact hf k u
  | full u => exact fun x l h => by cases h
  | memFault a u => exact he

theorem emit_faultsOnRefused (o cap : Nat) (v : Byte) (k : Nat) (s : State) :
    (emit o cap v k s).faultsOnRefused := by
  intro x l h
  unfold emit at h
  split at h
  · cases h
  · cases ha : s.allows (o + k) .W with
    | true => simp [memWrite_allowed ha] at h
    | false =>
      simp only [memWrite_refused ha] at h
      cases h
      exact .inr ha

theorem emitAll_faultsOnRefused (o cap : Nat) (vs : List Byte) (k : Nat) (s : State) :
    (emitAll o cap vs k s).faultsOnRefused := by
  induction vs generalizing k s with
  | nil => exact fun x l h => by cases h
  | cons v vs ih => exact (emit_faultsOnRefused o cap v k s).andThen ih

theorem emitPayload_faultsOnRefused (p o cap n j k : Nat) (s : State) :
    (emitPayload p o cap n j k s).faultsOnRefused := by
  induction n generalizing j k s with
  | zero => exact fun x l h => by cases h
  | succ n ih =>
    unfold emitPayload
    cases ha : s.allows (p + j) .R with
    | true =>
      rw [memRead_allowed ha]
      exact (emitAll_faultsOnRefused _ _ _ _ _).andThen (ih (j + 1))
    | false =>
      rw [memRead_refused ha]
      intro x l h
      cases h
      exact .inl ha

theorem emitFrame_faultsOnRefused (p n o cap : Nat) (s : State) :
    (emitFrame p n o cap s).faultsOnRefused :=
  ((emit_faultsOnRefused _ _ _ _ _).andThen
    (emitPayload_faultsOnRefused p o cap n 0)).andThen (emit_faultsOnRefused _ _ _)

/-! ### What a command does to the state -/

/-- All that a command may do to the state before it ends, apart from its record (R25, R26, R43):
BIND rewrites the session it names, DECB and DECN decode on theirs, ENC writes its output buffer,
and anything else changes nothing. -/
inductive Effect (i : Instr) (s : State) : State → Prop
  | none : Effect i s s
  | bind (k : Nat) (h : Handle) (a : Ref) (n : Word) (hi : i = .bind h a n)
      (hk : namedSession i s = some k) : Effect i s (s.setSession k (bindSession a n))
  | decode (k : Nat) (u : State) (hi : ∀ h a n, i ≠ .bind h a n)
      (hk : namedSession i s = some k) (hd : DecodesFrom k s u) (hkept : s.kept → u.kept) :
      Effect i s u
  | enc (p n o c : Word) (u : State) (hi : i = .enc (.present p) n (.present o) (.value c))
      (he : EmitsFrom o.toNat c.toNat s u) : Effect i s u

/-- Every command completes with one record, or faults on a byte that fails the check; either way
the rest of what it did is its effect. -/
theorem exec_ends (i : Instr) (s : State) :
    ∃ u, Effect i s u ∧ ((∃ r, exec i s = .next (u.respond r)) ∨
      ∃ a, exec i s = .fault (.memFault a u) ∧ u.refuses a) := by
  obtain e | ⟨k, h, a, n, hi, hn, -, e⟩ | ⟨k, h, -, -, -, e⟩ | ⟨k, h, b, rfl, hn, hk, hb, e⟩ |
    ⟨k, h, a, n, rfl, hn, hk, hb, e⟩ | ⟨p, n, o, c, hi, e⟩ := exec_cases i s
  · exact ⟨s, .none, .inl ⟨_, e⟩⟩
  · exact ⟨_, .bind k h a n hi hn, .inl ⟨_, e⟩⟩
  · exact ⟨s, .none, .inl ⟨_, e⟩⟩
  · have hd := feedByte_decodes (b := b) hk
    have hkept := fun hs : s.kept => feedByte_state_kept (b := b) hk hb hs
    cases hf : feedByte k b s with
    | done r u =>
      exact ⟨u, .decode k u (by simp) hn (hd.1 r u hf) fun hs => (hkept hs).1 r u hf,
        .inl ⟨r, by rw [e, hf]; rfl⟩⟩
    | memFault x u =>
      exact ⟨u, .decode k u (by simp) hn (hd.2 x u hf) fun hs => (hkept hs).2 x u hf,
        .inr ⟨x, by rw [e, hf]; rfl, feedByte_refuses hf⟩⟩
  · have hd := consume_decodes (a := a.toNat) (n := n.toNat) (i := 0) hk
    have hkept := fun hs : s.kept =>
      consume_state_kept (a := a.toNat) (n := n.toNat) (i := 0) hk hb hs
    cases hf : consume k a.toNat n.toNat 0 s with
    | done r u =>
      exact ⟨u, .decode k u (by simp) hn (hd.1 r u hf) fun hs => (hkept hs).1 r u hf,
        .inl ⟨r, by rw [e, hf]; rfl⟩⟩
    | memFault x u =>
      exact ⟨u, .decode k u (by simp) hn (hd.2 x u hf) fun hs => (hkept hs).2 x u hf,
        .inr ⟨x, by rw [e, hf]; rfl, consume_refuses hf⟩⟩
  · obtain ⟨_, u, -, -, hu, hr⟩ | ⟨u, -, hu, hr⟩ | ⟨x, u, hf, hu, hr⟩ :=
      emitFrame_cases p.toNat n.toNat o.toNat c.toNat s
    · exact ⟨u, .enc p n o c u hi hu, .inl ⟨_, by rw [e, hr]; rfl⟩⟩
    · exact ⟨u, .enc p n o c u hi hu, .inl ⟨_, by rw [e, hr]; rfl⟩⟩
    · exact ⟨u, .enc p n o c u hi hu, .inr ⟨x, by rw [e, hr]; rfl,
        emitFrame_faultsOnRefused _ _ _ _ _ x u hf⟩⟩

end Sys2Proof.Machine
end

section
/-! Steps: the caller's inputs one by one, and what every step keeps (10_state.md, 20_memory.md
R45). -/

namespace Sys2Proof.Machine

variable {i : Instr} {s t u l : State} {a : Nat}

/-! ### What an effect keeps -/

/-- An effect changes no parameter, no number of sessions and neither list of the interface. -/
theorem Effect.fixes (h : Effect i s u) :
    u.params = s.params ∧ u.nsess = s.nsess ∧ u.pending = s.pending ∧ u.results = s.results := by
  cases h with
  | none => exact ⟨rfl, rfl, rfl, rfl⟩
  | bind k h a n => exact ⟨rfl, setSession_nsess _ _ _, rfl, rfl⟩
  | decode k u hi hk hd => exact ⟨hd.params, hd.nsess, hd.pending, hd.results⟩
  | enc p n o c u hi he =>
    exact ⟨he.params, congrArg List.length he.sess, he.pending, he.results⟩

/-- The session BIND leaves is one the rules keep (R75). -/
theorem bindSession_kept (a : Ref) (n : Word) : (bindSession a n).kept := by
  cases a <;> simp [bindSession, Session.kept, Session.reset]

theorem Effect.kept (h : Effect i s u) (hs : s.kept) : u.kept := by
  cases h with
  | none => exact hs
  | bind k h a n => exact setSession_kept hs (bindSession_kept a n)
  | decode k u hi hk hd hkept => exact hkept hs
  | enc p n o c u hi he => exact emitsFrom_kept hs he

/-- A completed command is its effect and one record. -/
theorem exec_eq_next (h : exec i s = .next t) : ∃ u r, Effect i s u ∧ t = u.respond r := by
  obtain ⟨u, hu, ⟨r, e⟩ | ⟨a, e, -⟩⟩ := exec_ends i s <;> rw [e] at h <;> cases h
  exact ⟨u, r, hu, rfl⟩

/-- A command that faults is its effect, on a byte that fails the check. -/
theorem exec_eq_fault (h : exec i s = .fault (.memFault a l)) : Effect i s l ∧ l.refuses a := by
  obtain ⟨u, hu, ⟨r, e⟩ | ⟨a, e, hr⟩⟩ := exec_ends i s <;> rw [e] at h <;> cases h
  exact ⟨hu, hr⟩

/-! ### What a step does -/

/-- Every descriptor is performed as some command: one with an undefined opcode is answered as STAT
of the NULL handle is (R62, R67). -/
theorem performCommand_eq_exec (d : Descriptor) (s : State) :
    ∃ i, performCommand d s = exec i s := by
  cases h : decode d with
  | ok i => exact ⟨i, by rw [performCommand, h]⟩
  | error e => exact ⟨.stat .null, performCommand_of_decode_error h s⟩

/-- A step without a command: nothing to do, the caller's own write, or a reset (R31, R41, R135). -/
inductive Uncommanded (s : State) : State → Prop
  | held (hp : s.pending = []) : Uncommanded s s
  | store (a : Word) (v : Byte) (rest : List Input) (hp : s.pending = .store a v :: rest) :
      Uncommanded s (callerStore a v { s with pending := rest })
  | reset (rest : List Input) (hp : s.pending = .reset :: rest) :
      Uncommanded s (resetSessions { s with pending := rest })

/-- Everything a step can do under accepted parameters. -/
theorem step_cases (hacc : s.params.accepted s.nsess = true) :
    (∃ t, step s = .next t ∧ Uncommanded s t) ∨
      ∃ d rest i, s.pending = .command d :: rest ∧ step s = exec i { s with pending := rest } := by
  have hstep : step s = performInput s := if_pos hacc
  rw [hstep]
  unfold performInput
  split
  case h_1 hp => exact .inl ⟨_, rfl, .held hp⟩
  case h_2 d rest hp =>
    obtain ⟨i, hi⟩ := performCommand_eq_exec d { s with pending := rest }
    exact .inr ⟨d, rest, i, hp, hi⟩
  case h_3 a v rest hp => exact .inl ⟨_, rfl, .store a v rest hp⟩
  case h_4 rest hp => exact .inl ⟨_, rfl, .reset rest hp⟩

/-- A step that is not refused had accepted parameters (R8, R9). -/
theorem accepted_of_step (h : step s ≠ .refused .badParameters) :
    s.params.accepted s.nsess = true := by
  by_contra hacc
  exact h (step_of_not_accepted hacc)

theorem Uncommanded.fixes (h : Uncommanded s t) :
    t.params = s.params ∧ t.nsess = s.nsess ∧ t.pending = s.pending.tail ∧
      t.results = s.results := by
  cases h with
  | held hp => simp [hp]
  | store a v rest hp => simp [callerStore, hp, State.nsess]
  | reset rest hp => simp [resetSessions, hp, State.nsess]

theorem Uncommanded.kept (h : Uncommanded s t) (hs : s.kept) : t.kept := by
  cases h with
  | held => exact hs
  | store a v rest => exact ⟨write_wf hs.1 a.isLt, hs.2⟩
  | reset rest =>
    refine ⟨hs.1, fun x hx => ?_⟩
    obtain ⟨-, -, rfl⟩ := List.mem_map.1 hx
    simp [Session.kept, Session.reset]

/-! ### The statements -/

/-- Settles O14: the parameters, the empty memory and the one session after reset are literals. -/
theorem resetMeetsTheInvariant : Obligations.ResetMeetsTheInvariant := by
  unfold Obligations.ResetMeetsTheInvariant
  decide

/-- Settles O15: an input without a command and the effect of a command both keep the memory and the
sessions, and neither touches the parameters. -/
theorem stepKeepsTheInvariant : Obligations.StepKeepsTheInvariant := by
  rintro s t ⟨hacc, hkept⟩
  have keeps : ∀ {i rest u}, Effect i { s with pending := rest } u → u.Inv := by
    intro i rest u hu
    obtain ⟨hp, hn, -⟩ := hu.fixes
    exact ⟨by rw [hp, hn]; exact hacc, hu.kept hkept⟩
  obtain ⟨v, e, hv⟩ | ⟨d, rest, i, -, e⟩ := step_cases hacc <;> rw [e]
  · refine ⟨fun h => ?_, fun a h => by cases h⟩
    cases h
    obtain ⟨hp, hn, -⟩ := hv.fixes
    exact ⟨by rw [hp, hn]; exact hacc, hv.kept hkept⟩
  · refine ⟨fun h => ?_, fun a h => keeps (exec_eq_fault h).1⟩
    obtain ⟨u, r, hu, rfl⟩ := exec_eq_next h
    exact (keeps hu : u.Inv)

/-- Settles O16: the effect of a command, like any other input, leaves all of this alone; the record
of a completed command is the only addition. -/
theorem stepKeepsTheParameters : Obligations.StepKeepsTheParameters := by
  intro s t
  constructor
  · intro h
    obtain ⟨v, e, hv⟩ | ⟨d, rest, i, hpend, e⟩ :=
      step_cases (s := s) (accepted_of_step (by simp [h])) <;> rw [e] at h
    · cases h
      obtain ⟨hp, hn, hpend, hr⟩ := hv.fixes
      exact ⟨hp, hn, hpend, .inl hr⟩
    · obtain ⟨u, r, hu, rfl⟩ := exec_eq_next h
      obtain ⟨hp, hn, hq, hr⟩ := hu.fixes
      exact ⟨hp, hn, by rw [hpend]; exact hq, .inr ⟨r, by rw [respond_results, hr]⟩⟩
  · intro a h
    obtain ⟨v, e, hv⟩ | ⟨d, rest, i, hpend, e⟩ :=
      step_cases (s := s) (accepted_of_step (by simp [h])) <;> rw [e] at h
    · cases h
    · obtain ⟨hp, hn, hq, hr⟩ := (exec_eq_fault h).1.fixes
      exact ⟨hp, hn, by rw [hpend]; exact hq, hr⟩

/-- Settles O9: a command completes or faults on a byte that fails the check, whose verdict depends
on the parameters alone, and every other input completes. -/
theorem stepStopsOnlyOnMemFault : Obligations.StepStopsOnlyOnMemFault := by
  intro s hacc
  obtain ⟨v, e, -⟩ | ⟨d, rest, i, -, e⟩ := step_cases hacc
  · exact .inl ⟨v, e⟩
  · obtain ⟨u, hu, ⟨r, e'⟩ | ⟨a, e', href⟩⟩ := exec_ends i { s with pending := rest }
    · exact .inl ⟨_, e.trans e'⟩
    · refine .inr ⟨a, u, e.trans e', ?_⟩
      have hp : u.params = s.params := hu.fixes.1
      simp only [State.refuses, State.allows, hp, Bool.and_eq_false_iff, decide_eq_false_iff_not]
        at href
      tauto

/-- Settles O6: the step performs the command at the head of the queue, where `withFetchWord` puts
the opcode-table word. -/
theorem stepRunsThePresentedCommand : Obligations.StepRunsThePresentedCommand := by
  intro s hacc
  have run_command : ∀ {s' : State} {d rest i}, s'.params.accepted s'.nsess = true →
      s'.pending = .command d :: rest → decode d = .ok i →
      step s' = exec i { s' with pending := rest } := by
    intro s' d rest i hacc' hp hd
    rw [step_of_command hacc' hp, performCommand, hd]
  refine ⟨fun d rest i => run_command hacc, fun nbits w i hw => ?_⟩
  unfold decodeTableWord at hw
  cases hd : decode (tableDescriptor nbits w) with
  | error e => simp [hd] at hw
  | ok j =>
    simp only [hd, Option.some.injEq] at hw
    exact run_command (s' := s.withFetchWord nbits w) hacc rfl (hw ▸ hd)

/-- Settles O10: the reset input rewrites every session with the values of R31, and nothing else. -/
theorem resetReachesTheResetValues : Obligations.ResetReachesTheResetValues := by
  intro s rest hacc hp
  have hstep : step s = .next (resetSessions { s with pending := rest }) := by
    rw [step, if_pos hacc, performInput, hp]
  refine ⟨_, hstep, rfl, rfl, by simp [resetSessions, State.nsess], rfl, rfl, fun h hh => ?_⟩
  have hreset : (resetSessions { s with pending := rest }).session h = Session.reset := by
    obtain ⟨-, -, hx⟩ := List.mem_map.1 (session_mem hh)
    exact hx.symm
  rw [hreset]
  exact ⟨rfl, rfl, rfl, rfl, rfl, rfl⟩

/-- Settles O11: without an input the state is held, and the caller's write is a plain write. -/
theorem betweenCommandsStateIsHeld : Obligations.BetweenCommandsStateIsHeld := by
  intro s hacc
  refine ⟨fun hp => ?_, fun a v rest hp hm => ?_⟩
  · rw [step, if_pos hacc, performInput, hp]
  · have hstep : step s = .next (callerStore a v { s with pending := rest }) := by
      rw [step, if_pos hacc, performInput, hp]
    exact ⟨_, hstep, rfl, rfl, rfl, rfl, read_write_same hm, fun x hx => read_write_other hm hx⟩

end Sys2Proof.Machine
end

section
/-! What the record of a command says about the session it worked on (30_encoding.md R61, R66, R68;
10_state.md R19, R24). -/

namespace Sys2Proof.Machine

variable {i : Instr} {s t u : State} {r : Result} {k a n j : Nat} {b : Byte} {h : Handle}

/-! ### Outcomes of decoding -/

/-- How the outcome `o` and the length `len` that decoding on session `k` returns speak of the
sessions before and after it: COMPLETE latches the length (R24, R83), anything else has length 0
and no latch, and IDLE is entered only by an abort (R19, R91). -/
structure Reports (k : Nat) (s : State) (o : OutcomeCode) (len : Word) (t : State) : Prop where
  ne_empty : o ≠ .EMPTY
  complete : o = .COMPLETE → len ≠ 0 ∧ (t.session k).frame_len = len ∧
    (t.session k).state = .ACTIVE ∧ (t.session k).widx = 0
  other : o ≠ .COMPLETE → len = 0 ∧ (t.session k).frame_len = (s.session k).frame_len
  idle : (s.session k).state ≠ .IDLE → (t.session k).state = .IDLE → o = .ERROR ∨ o = .OVERFLOW

/-- A byte that takes a session to IDLE aborts a frame (R19, R91). -/
theorem transition_idle {m : Markers} {x : Session} (hx : x.state ≠ .IDLE)
    (ha : (transition m x b).after.state = .IDLE) :
    (transition m x b).outcome = .ERROR ∨ (transition m x b).outcome = .OVERFLOW := by
  obtain e | ⟨h, -, -⟩ | ⟨-, -, -, e⟩ | ⟨hs, -, -, e⟩ | ⟨v, -, -, e⟩ | ⟨-, -, e⟩ | ⟨-, -, -, e⟩ :=
    transition_cases m x b
  · rw [e] at ha; exact absurd ha hx
  · exact absurd h hx
  · rw [e] at ha; cases ha
  · rw [e] at ha; exact absurd ha hx
  · rw [e] at ha; cases ha
  · rw [e]; exact .inr rfl
  · rw [e]; exact .inl rfl

theorem byteStep_reports {o : OutcomeCode} {len : Word} (hk : k < s.nsess)
    (h : byteStep k b s = .done (o, len) t) : Reports k s o len t := by
  have ht := byteStep_session hk h
  obtain ⟨hol, -⟩ := byteStep_eq_done_iff.1 h
  obtain ⟨rfl, rfl⟩ := Prod.mk.inj hol
  obtain ⟨h1, h2, h3⟩ := transition_outcome s.params.markers (s.session k) b
  refine ⟨h1, fun hc => ?_, ?_, ?_⟩ <;> rw [ht]
  · obtain ⟨hl, hw, hs, ha⟩ := h2 hc
    rw [ha, hl]
    exact ⟨hw, rfl, hs, rfl⟩
  · exact h3
  · exact transition_idle

/-- The record of a loop that went on is about the first state, too: CONTINUE changes neither what
is latched nor whether the session is in IDLE by an abort. -/
theorem Reports.after_continue {len len' : Word} {o : OutcomeCode}
    (h : Reports k s .CONTINUE len t) (h' : Reports k t o len' u) : Reports k s o len' u where
  ne_empty := h'.ne_empty
  complete := h'.complete
  other ho := ⟨(h'.other ho).1, (h'.other ho).2.trans (h.other (by simp)).2⟩
  idle hs hu := h'.idle (fun ht => by simpa using h.idle hs ht) hu

theorem feedByte_reports (hk : k < s.nsess) (h : feedByte k b s = .done r t) :
    Reports k s r.outcome r.length t := by
  unfold feedByte at h
  cases hb : byteStep k b s with
  | memFault x l => simp [hb] at h
  | done ol u =>
    simp only [hb, Attempt.done.injEq] at h
    obtain ⟨rfl, rfl⟩ := h
    exact byteStep_reports hk hb

theorem consume_reports (hk : k < s.nsess) (h : consume k a n j s = .done r t) :
    Reports k s r.outcome r.length t := by
  induction n generalizing j s with
  | zero =>
    cases h
    exact ⟨by simp, by simp, by simp, fun hs ht => absurd ht hs⟩
  | succ n ih =>
    obtain ⟨-, e⟩ | ⟨-, y, -, e⟩ | ⟨-, len, u, hb, e⟩ | ⟨-, o, len, u, hb, -, e⟩ :=
      consume_succ_cases k a n j s <;> rw [e] at h
    · cases h
    · cases h
    · have hk' : k < u.nsess := by rw [(byteStep_decodes hk hb).nsess]; exact hk
      exact (byteStep_reports hk hb).after_continue (ih hk' h)
    · cases h
      exact byteStep_reports hk hb

/-! ### Records of whole commands -/

/-- A record appended to the list of results says nothing about a session. -/
theorem Reports.respond {o : OutcomeCode} {len : Word} (h : Reports k s o len u) (r : Result) :
    Reports k s o len (u.respond r) :=
  ⟨h.ne_empty, h.complete, h.other, h.idle⟩

/-- A completed command changes no session, or is a BIND of the session it names, or decoded on it
and reports so. -/
theorem answers_reports (h : answers i s r t) :
    (t.sess = s.sess ∧ r.outcome ≠ .EMPTY ∧ (r.outcome = .COMPLETE → namedSession i s = none)) ∨
    (∃ k h a n, i = .bind h a n ∧ namedSession i s = some k ∧ r = Result.ok ∧
      t.sess = (s.setSession k (bindSession a n)).sess) ∨
    (∃ k, (∀ h a n, i ≠ .bind h a n) ∧ namedSession i s = some k ∧
      (∀ j, j ≠ k → t.session j = s.session j) ∧ Reports k s r.outcome r.length t) := by
  obtain ⟨rfl, rfl⟩ | ⟨k, h', a, n, hi, hn, -, hr, rfl⟩ | ⟨k, h', -, -, -, rfl, rfl⟩ |
    ⟨k, h', b, u, rfl, hn, hk, -, hu, rfl⟩ | ⟨k, h', a, n, u, rfl, hn, hk, -, hu, rfl⟩ |
    ⟨p, n, o, c, u, rfl, hu, he, rfl⟩ := answers_cases h
  · exact .inl ⟨rfl, by simp [Result.error], by simp [Result.error]⟩
  · exact .inr (.inl ⟨k, h', a, n, hi, hn, hr, rfl⟩)
  · exact .inl ⟨rfl, by simp [statResult], by simp [statResult]⟩
  · exact .inr (.inr ⟨k, by simp, hn, ((feedByte_decodes hk).1 r u hu).others,
      (feedByte_reports hk hu).respond r⟩)
  · exact .inr (.inr ⟨k, by simp, hn, ((consume_decodes hk).1 r u hu).others,
      (consume_reports hk hu).respond r⟩)
  · refine .inl ⟨he.sess, ?_, fun _ => rfl⟩
    obtain ⟨_, v, -, -, -, e⟩ | ⟨v, -, -, e⟩ | ⟨_, v, -, -, e⟩ :=
      emitFrame_cases p.toNat n.toNat o.toNat c.toNat s <;> rw [e] at hu <;> cases hu <;> simp

theorem session_congr (h : t.sess = s.sess) (k : Nat) : t.session k = s.session k := by
  rw [State.session, State.session, h]

/-- No completed command returns EMPTY (R68). -/
theorem answers_ne_empty (h : answers i s r t) : r.outcome ≠ .EMPTY := by
  obtain ⟨-, hr, -⟩ | ⟨_, _, _, _, -, -, rfl, -⟩ | ⟨k, -, -, -, hr⟩ := answers_reports h
  · exact hr
  · simp [Result.ok]
  · exact hr.ne_empty

/-- Settles O17: the record of a step is that of a command, which is never EMPTY, and the codes that
are never produced are no outcome's and no state's. -/
theorem emptyIsNeverReturned : Obligations.EmptyIsNeverReturned := by
  intro s t r hstep hres
  obtain ⟨ho, -, hs, -⟩ := result_encode_fields r
  have hne : r.outcome ≠ .EMPTY := by
    obtain ⟨v, e, hv⟩ | ⟨d, rest, i, -, e⟩ :=
      step_cases (s := s) (accepted_of_step (by simp [hstep])) <;> rw [e] at hstep
    · cases hstep
      obtain ⟨-, -, -, hr⟩ := hv.fixes
      simp [hr] at hres
    · exact answers_ne_empty (s := { s with pending := rest }) ⟨hstep, hres⟩
  rw [ho, hs]
  refine ⟨?_, ?_, ?_⟩
  · cases hc : r.outcome <;> simp_all [OutcomeCode.code]
  · cases r.outcome <;> decide
  · cases r.st_state <;> decide

/-- Settles O21: of the three kinds of completed command the first changes no session, BIND is
allowed to, and decoding enters IDLE by an abort only. -/
theorem idleIsReenteredOnlyByAbortOrBind : Obligations.IdleIsReenteredOnlyByAbortOrBind := by
  intro i s t r k _ h hs ht
  obtain ⟨hsess, -⟩ | ⟨k', h', a, n, hi, hn, -, hsess⟩ | ⟨k', -, hn, hother, hr⟩ :=
    answers_reports h
  · rw [session_congr hsess] at ht
    exact absurd ht hs
  · rw [session_congr hsess] at ht
    by_cases hk : k = k'
    · exact ⟨hk ▸ hn, .inl ⟨h', a, n, hi⟩⟩
    · rw [session_setSession_other _ hk] at ht
      exact absurd ht hs
  · by_cases hk : k = k'
    · subst hk
      exact ⟨hn, .inr (hr.idle hs ht)⟩
    · rw [hother k hk] at ht
      exact absurd ht hs

/-- The session BIND leaves has no completed frame (R24, R75). -/
theorem bindSession_frame_len (a : Ref) (n : Word) : (bindSession a n).frame_len = 0 := by
  cases a <;> rfl

/-- Settles O22: BIND writes 0, COMPLETE latches the record's length, and nothing else writes the
field. -/
theorem frameLenIsLatchedOnComplete : Obligations.FrameLenIsLatchedOnComplete := by
  intro i s t r k hk h
  refine ⟨?_, fun hn hi hc => ?_, fun hor => ?_⟩
  · rintro hn ⟨h', a, n, rfl⟩
    have ht := returns_eq_next_iff.1 ((exec_bind hn a n).symm.trans h.1)
    rw [ht, respond_session, session_setSession_same _ hk, bindSession_frame_len]
  · obtain ⟨-, -, hnone⟩ | ⟨k', h', a, n, hi', -⟩ | ⟨k', -, hn', -, hr⟩ := answers_reports h
    · simp [hnone hc] at hn
    · exact absurd ⟨h', a, n, hi'⟩ hi
    · obtain rfl : k = k' := by simpa [hn] using hn'
      exact (hr.complete hc).2.1
  · obtain ⟨hsess, -⟩ | ⟨k', h', a, n, hi, hn, -, hsess⟩ | ⟨k', -, hn, hother, hr⟩ :=
      answers_reports h
    · rw [session_congr hsess]
    · have hk' : k ≠ k' := by
        rintro rfl
        exact hor.elim (fun h => h hn) (fun h => h.1 ⟨h', a, n, hi⟩)
      rw [session_congr hsess, session_setSession_other _ hk']
    · by_cases hk' : k = k'
      · subst hk'
        exact (hr.other (hor.elim (fun h => absurd hn h) And.right)).2
      · rw [hother k hk']

/-! ### Effects, session by session -/

/-- A command that completes or faults leaves its effect, and perhaps a record. -/
theorem effect_of_ends (h : exec i s = .next t ∨ ∃ a, exec i s = .fault (.memFault a t)) :
    ∃ u, Effect i s u ∧ t.params = u.params ∧ t.sess = u.sess ∧ t.mem = u.mem ∧
      t.pending = u.pending := by
  obtain h | ⟨a, h⟩ := h
  · obtain ⟨u, r, hu, rfl⟩ := exec_eq_next h
    exact ⟨u, hu, rfl, rfl, rfl, rfl⟩
  · exact ⟨t, (exec_eq_fault h).1, rfl, rfl, rfl, rfl⟩

/-- Settles O23: without BIND, the effect of a command keeps the binding of the session it decodes
on, and every other session whole. -/
theorem onlyBindChangesTheBinding : Obligations.OnlyBindChangesTheBinding := by
  intro i s t k hi h
  obtain ⟨u, hu, -, hsess, -⟩ := effect_of_ends h
  rw [session_congr hsess]
  cases hu with
  | none => exact ⟨rfl, rfl, rfl⟩
  | bind k' h' a n hi' => exact absurd ⟨h', a, n, hi'⟩ hi
  | decode k' u hi' hk hd =>
    by_cases hk' : k = k'
    · subst hk'
      exact ⟨hd.bound, hd.out_base, hd.cap⟩
    · rw [hd.others k hk']
      exact ⟨rfl, rfl, rfl⟩
  | enc p n o c u hi' he =>
    rw [session_congr he.sess]
    exact ⟨rfl, rfl, rfl⟩

/-- The session a decoding command names is the bound one of its handle. -/
theorem namedSession_of_decodes (hb : s.bindsSession h k)
    (hi : (∃ b, i = .decb h b) ∨ ∃ a n, i = .decn h a n) : namedSession i s = some k := by
  obtain ⟨b, rfl⟩ | ⟨a, n, rfl⟩ := hi <;> exact hb.1

/-- Settles O37: the effect of DECB and DECN is decoding on their session. -/
theorem decodeFrame : Obligations.DecodeFrame := by
  intro i s t h k hinv hb hi hends
  obtain ⟨u, hu, hp, hsess, hm, hq⟩ := effect_of_ends hends
  have hn := namedSession_of_decodes hb hi
  have hd : DecodesFrom k s u := by
    cases hu with
    | none => exact .refl k s
    | bind k' h' a n hi' => obtain ⟨b, rfl⟩ | ⟨a', n', rfl⟩ := hi <;> cases hi'
    | decode k' u hi' hk hd =>
      obtain rfl : k' = k := by simpa [hk] using hn
      exact hd
    | enc p n o c u hi' => obtain ⟨b, rfl⟩ | ⟨a', n', rfl⟩ := hi <;> cases hi'
  have hn : t.nsess = u.nsess := congrArg List.length hsess
  simp only [hp, hq, hm, hn, session_congr hsess]
  exact ⟨hd.params, hd.pending, hd.nsess, hd.others, hd.bound, hd.out_base, hd.cap,
    hd.mem hinv.2.1⟩

/-- Settles O34: the record latches its length in a session that stays as the rules keep it, so the
length is within the capacity. -/
theorem deliveredLengthIsWithinCapacity : Obligations.DeliveredLengthIsWithinCapacity := by
  intro i s t h k r hinv hb hi h hc
  have hn := namedSession_of_decodes hb hi
  obtain ⟨-, -, hnone⟩ | ⟨k', h', a, n, hi', -⟩ | ⟨k', -, hn', -, hr⟩ := answers_reports h
  · simp [hnone hc] at hn
  · obtain ⟨b, rfl⟩ | ⟨a', n', rfl⟩ := hi <;> cases hi'
  · obtain rfl : k' = k := by simpa [hn'] using hn
    obtain ⟨hne, hlen, hstate, hw⟩ := hr.complete hc
    obtain ⟨-, -, hnsess, -, -, -, hcap, -⟩ := decodeFrame i s t _ k' hinv hb hi (.inl h.1)
    have ht : (t.session k').kept := by
      obtain ⟨u, r', hu, rfl⟩ := exec_eq_next h.1
      refine (hu.kept hinv.2).2 _ (session_mem (s := u) ?_)
      rw [hu.fixes.2.1]
      exact validSession_lt hb.1
    obtain ⟨-, hflen, -⟩ := ht
    rw [hlen, hcap] at hflen
    have hpos : r.length.toNat ≠ 0 := fun h0 => hne (BitVec.eq_of_toNat_eq h0)
    exact ⟨by omega, hflen, hlen, hstate, hw⟩

end Sys2Proof.Machine
end

section
/-! What a command does not see: other sessions, earlier records, inputs to come (10_state.md R17,
R27), and the order of two bytes on different sessions (60_exceptions.md R133). -/

namespace Sys2Proof.Machine

variable {f : State → State} {s t u : State} {k k' : Nat} {b b' : Byte} {h h' : Handle}

/-! ### Changes that pass through every command -/

theorem mapOutcome_returns (hr : ∀ r s, f (s.respond r) = (f s).respond r) (r : Result)
    (s : State) :
    mapOutcome f (returns r s) = returns r (f s) := by
  simp [returns, mapOutcome, hr]

/-- A change that cannot tell the session of a handle leaves the pre-check of R78 as it was. -/
theorem boundSession_inert (hn : (f s).nsess = s.nsess)
    (hf : ∀ k, validSession h s = some k → SessionInert f k) :
    boundSession h (f s) = boundSession h s := by
  unfold boundSession
  rw [validSession_congr hn]
  cases hv : validSession h s with
  | none => rfl
  | some k => simp only [(hf k hv).session]

/-- A change that neither the memory accesses, nor the number of sessions, nor the session a command
names can tell passes through the command. -/
theorem exec_inert (i : Instr) (s : State) (hm : MemoryInert f)
    (hn : (f s).nsess = s.nsess) (hr : ∀ r s, f (s.respond r) = (f s).respond r)
    (hf : ∀ k, namedSession i s = some k → SessionInert f k) :
    exec i (f s) = mapOutcome f (exec i s) := by
  have herror : returns Result.error (f s) = mapOutcome f (returns Result.error s) :=
    (mapOutcome_returns hr _ _).symm
  cases i with
  | bind h a n =>
    simp only [exec, execBind, validSession_congr hn]
    cases hv : validSession h s with
    | none => exact herror
    | some k => simp only [mapOutcome_returns hr, (hf k hv).setSession]
  | stat h =>
    simp only [exec, execStat, validSession_congr hn]
    cases hv : validSession h s with
    | none => exact herror
    | some k => simp only [mapOutcome_returns hr, (hf k hv).session]
  | decb h b =>
    simp only [exec, execDecb, boundSession_inert hn hf]
    cases hb : boundSession h s with
    | none => exact herror
    | some k =>
      have hk := hf k (boundSession_eq_some_iff.1 hb).1
      simp only [feedByte_inert hk, finish_mapState hr]
  | decn h a n =>
    cases a with
    | absent => rw [exec_decn_absent, exec_decn_absent, herror]
    | present a =>
      simp only [exec, execDecn, refAddress, boundSession_inert hn hf]
      cases hb : boundSession h s with
      | none => exact herror
      | some k =>
        have hk := hf k (boundSession_eq_some_iff.1 hb).1
        simp only [consume_inert hk, finish_mapState hr]
  | enc a n b c =>
    by_cases habs : a = .absent ∨ b = .absent ∨ c = .absent
    · rw [exec_enc_absent habs, exec_enc_absent habs, herror]
    · cases a <;> cases b <;> cases c <;> simp at habs
      rw [exec_enc, exec_enc, emitFrame_inert hm, result_mapState, finish_mapState hr]

/-- Settles O18: the fields of a session that a command does not name are a change it does not
see. -/
theorem sessionsAreIndependent : Obligations.SessionsAreIndependent := by
  intro i s h' x hne
  refine exec_inert (f := fun t => t.setSession h' x) i s ?_ (setSession_nsess _ _ _)
    (fun _ _ => rfl) (fun k hk => otherSession_inert ?_ x)
  · exact ⟨fun _ => rfl, fun _ => rfl, fun _ _ _ => rfl⟩
  · rintro rfl
    exact hne hk

/-- Settles O19: more records before, and other inputs behind, are a change no command sees. -/
theorem commandsReadNoEarlierOutcome : Obligations.CommandsReadNoEarlierOutcome := by
  intro i s rs ps
  refine exec_inert (f := fun t => { t with results := rs ++ t.results, pending := ps }) i s ?_
    rfl ?_ (fun k _ => ?_)
  · exact ⟨fun _ => rfl, fun _ => rfl, fun _ _ _ => rfl⟩
  · intro r t
    simp [State.respond]
  · exact ⟨⟨fun _ => rfl, fun _ => rfl, fun _ _ _ => rfl⟩, fun _ => rfl, fun _ _ => rfl⟩

/-! ### A byte as its transition -/

/-- The state with the byte of a transition stored, if it stores one, unchecked. -/
def State.storing (s : State) : Option (Nat × Byte) → State
  | none => s
  | some (a, v) => s.poke a v

/-- The state after a transition of session `k` whose store, if any, passed the check. -/
def State.apply (s : State) (k : Nat) (tr : Transition) : State :=
  (s.storing tr.store).setSession k tr.after

@[simp] theorem storing_params (w : Option (Nat × Byte)) : (s.storing w).params = s.params := by
  cases w <;> rfl

@[simp] theorem storing_session (w : Option (Nat × Byte)) (j : Nat) :
    (s.storing w).session j = s.session j := by
  cases w <;> rfl

theorem storing_setSession (w : Option (Nat × Byte)) (x : Session) :
    (s.setSession k x).storing w = (s.storing w).setSession k x := by
  cases w <;> rfl

@[simp] theorem apply_params (tr : Transition) : (s.apply k tr).params = s.params :=
  storing_params _

@[simp] theorem apply_nsess (tr : Transition) : (s.apply k tr).nsess = s.nsess := by
  unfold State.apply
  cases tr.store <;> exact setSession_nsess _ _ _

theorem apply_respond (tr : Transition) (r : Result) :
    (s.respond r).apply k tr = (s.apply k tr).respond r := by
  unfold State.apply
  cases tr.store <;> rfl

theorem apply_session_other (hk : k' ≠ k) (tr : Transition) :
    (s.apply k tr).session k' = s.session k' :=
  (session_setSession_other _ hk).trans (storing_session _ _)

/-- On a session that may store every byte its capacity admits, a byte is its transition. -/
theorem byteStep_of_writable (b : Byte) (hw : s.outputWritable k) :
    byteStep k b s = .done ((transition s.params.markers (s.session k) b).outcome,
      (transition s.params.markers (s.session k) b).length)
      (s.apply k (transition s.params.markers (s.session k) b)) := by
  rw [byteStep_eq_done_iff]
  refine ⟨rfl, ?_⟩
  unfold State.apply
  cases hst : (transition s.params.markers (s.session k) b).store with
  | none => exact .inl ⟨rfl, rfl⟩
  | some av =>
    obtain ⟨a, v⟩ := av
    obtain ⟨rfl, hlt, -⟩ := transition_store hst
    exact .inr ⟨_, v, rfl, hw _ hlt, rfl⟩

/-! ### Two bytes on different sessions -/

theorem apply_outputWritable_other (hk : k' ≠ k) (tr : Transition) (hw : s.outputWritable k') :
    (s.apply k tr).outputWritable k' := by
  unfold State.outputWritable
  rw [apply_session_other hk]
  exact fun j hj => (allows_congr (apply_params tr) _).trans (hw j hj)

/-- Two stores go to different addresses of the space, as far as both store. -/
def storesApart (w w' : Option (Nat × Byte)) : Prop :=
  ∀ a v a' v', w = some (a, v) → w' = some (a', v') →
    a < addressLimit ∧ a' < addressLimit ∧ a ≠ a'

theorem storing_comm {w w' : Option (Nat × Byte)} (hm : s.mem.wf) (hap : storesApart w w') :
    (s.storing w).storing w' = (s.storing w').storing w := by
  cases w with
  | none => rfl
  | some av =>
    cases w' with
    | none => rfl
    | some av' =>
      obtain ⟨ha, ha', hne⟩ := hap _ _ _ _ rfl rfl
      simp only [State.storing, State.poke, write_comm hm ha ha' hne]

theorem apply_comm {tr tr' : Transition} (hm : s.mem.wf) (hk : k ≠ k')
    (hap : storesApart tr.store tr'.store) :
    (s.apply k tr).apply k' tr' = (s.apply k' tr').apply k tr := by
  unfold State.apply
  rw [storing_setSession, storing_setSession, storing_comm hm hap, setSession_comm _ _ hk.symm]

/-- The record of a transition (R77). -/
def Transition.record (tr : Transition) : Result :=
  { outcome := tr.outcome, length := tr.length }

/-- DECB on a session that may store every byte its capacity admits is the transition of its byte.
-/
theorem answers_decb_of_writable (hb : s.bindsSession h k) (hw : s.outputWritable k) (b : Byte) :
    answers (.decb h b) s (transition s.params.markers (s.session k) b).record
      ((s.apply k (transition s.params.markers (s.session k) b)).respond
        (transition s.params.markers (s.session k) b).record) := by
  refine (answers_decb hb).2 ⟨_, ?_, rfl⟩
  rw [feedByte, byteStep_of_writable b hw]
  rfl

/-- After a byte on another session, DECB is the same transition. -/
theorem answers_decb_after_other (hb : s.bindsSession h k) (hw : s.outputWritable k) (b : Byte)
    (hk : k ≠ k') (tr : Transition) (r : Result) :
    answers (.decb h b) ((s.apply k' tr).respond r)
      (transition s.params.markers (s.session k) b).record
      ((((s.apply k' tr).apply k (transition s.params.markers (s.session k) b)).respond r).respond
        (transition s.params.markers (s.session k) b).record) := by
  have hsess : ((s.apply k' tr).respond r).session k = s.session k := apply_session_other hk tr
  have hb' : ((s.apply k' tr).respond r).bindsSession h k :=
    ⟨(validSession_congr (apply_nsess tr)).trans hb.1, by rw [hsess]; exact hb.2⟩
  have hw' : ((s.apply k' tr).respond r).outputWritable k := apply_outputWritable_other hk tr hw
  have := answers_decb_of_writable hb' hw' b
  rwa [hsess, respond_params, apply_params, apply_respond] at this

/-- Settles O20: each byte is a transition that the other does not see, and the two stores go to
buffers that do not overlap. -/
theorem sessionsCommute : Obligations.SessionsCommute := by
  intro s h h' k k' b b' hinv hb hb' hne hw hw' hap
  refine ⟨_, _, _, _, _, _, answers_decb_of_writable hb hw b,
    answers_decb_after_other hb' hw' b' hne.symm _ _, answers_decb_of_writable hb' hw' b',
    answers_decb_after_other hb hw b hne _ _, ?_⟩
  have hcomm := apply_comm hinv.2.1 hne.symm (s := s)
    (tr := transition s.params.markers (s.session k') b')
    (tr' := transition s.params.markers (s.session k) b) ?_
  · simp only [respond_sess, respond_mem, hcomm, and_self]
  · intro a' v' a v hst' hst
    obtain ⟨rfl, hlt', -⟩ := transition_store hst'
    obtain ⟨rfl, hlt, -⟩ := transition_store hst
    exact ⟨allows_lt (hw' _ hlt'), allows_lt (hw _ hlt), fun he => hap _ hlt _ hlt' he.symm⟩

end Sys2Proof.Machine
end

section
/-! One byte, one outcome (40_decoder.md R79, R124), and DECN as a repeated DECB and as `Run` (R94
to R101). -/

namespace Sys2Proof.Machine

variable {s t u : State} {k a n i : Nat} {h : Handle} {r : Result}

/-! ### The outcome of a byte, state by state -/

section Outcomes

variable {m : Markers} {x : Session} {b v : Byte}

theorem storePayload_outcome (hw : x.widx.toNat ≤ x.cap.toNat) :
    (storePayload x v).outcome = if x.widx = x.cap then .OVERFLOW else .CONTINUE := by
  split
  case isTrue he => rw [storePayload_of_full he]; rfl
  case isFalse he =>
    have hne : x.widx.toNat ≠ x.cap.toNat := fun h => he (BitVec.eq_of_toNat_eq h)
    rw [storePayload_of_lt (BitVec.lt_def.2 (by omega))]

theorem outcome_idle (hs : x.state = .IDLE) : (transition m x b).outcome = .CONTINUE := by
  by_cases hb : b = m.END
  · rw [hb, transition_idle_end m hs]; rfl
  · rw [transition_idle_other hs hb]; rfl

theorem outcome_active (hs : x.state = .ACTIVE) (hw : x.widx.toNat ≤ x.cap.toNat) :
    (transition m x b).outcome =
      if b = m.END then (if x.widx = 0 then .CONTINUE else .COMPLETE)
      else if b = m.ESC then .CONTINUE
      else if x.widx = x.cap then .OVERFLOW else .CONTINUE := by
  by_cases hE : b = m.END
  · rw [if_pos hE, hE, transition_active_end m hs]
    unfold stepFrameEnd
    split <;> rfl
  · rw [if_neg hE]
    by_cases hS : b = m.ESC
    · rw [if_pos hS]
      subst hS
      rw [transition_active_esc hs hE]
      rfl
    · rw [if_neg hS, transition_active_literal hs hE hS, storePayload_outcome hw]

theorem outcome_escaped (hs : x.state = .ESCAPED) (hw : x.widx.toNat ≤ x.cap.toNat) :
    (transition m x b).outcome =
      if b = m.ESC_END ∨ b = m.ESC_ESC then (if x.widx = x.cap then .OVERFLOW else .CONTINUE)
      else .ERROR := by
  split
  case isTrue hb =>
    obtain ⟨v, hv⟩ : ∃ v, unescape m b = some v := by
      unfold unescape
      split_ifs
      · exact ⟨_, rfl⟩
      · exact ⟨_, rfl⟩
      · tauto
    rw [transition_escaped_code hs hv, storePayload_outcome hw]
  case isFalse hb =>
    rw [not_or] at hb
    rw [transition_escaped_invalid hs (unescape_eq_none hb.1 hb.2)]
    rfl

/-- Each outcome but CONTINUE, in exactly the rows of R79 that return it. -/
theorem transition_outcome_iff (hw : x.widx.toNat ≤ x.cap.toNat) :
    ((transition m x b).outcome = .ERROR ↔ x.state = .ESCAPED ∧ b ≠ m.ESC_END ∧ b ≠ m.ESC_ESC) ∧
    ((transition m x b).outcome = .OVERFLOW ↔ x.widx = x.cap ∧
      ((x.state = .ACTIVE ∧ b ≠ m.END ∧ b ≠ m.ESC) ∨
        (x.state = .ESCAPED ∧ (b = m.ESC_END ∨ b = m.ESC_ESC)))) ∧
    ((transition m x b).outcome = .COMPLETE ↔ x.state = .ACTIVE ∧ b = m.END ∧ x.widx ≠ 0) := by
  cases hs : x.state with
  | IDLE => simp [outcome_idle hs]
  | ACTIVE =>
    rw [outcome_active hs hw]
    split_ifs <;> simp_all
  | ESCAPED =>
    rw [outcome_escaped hs hw, ← not_or]
    split_ifs <;> simp [*]

end Outcomes

/-- The record of DECB is the outcome and the length of its transition. -/
theorem record_of_answers_decb {b : Byte} (hb : s.bindsSession h k)
    (ha : answers (.decb h b) s r t) :
    r.outcome = (transition s.params.markers (s.session k) b).outcome ∧
      r.length = (transition s.params.markers (s.session k) b).length := by
  obtain ⟨u, hu, -⟩ := (answers_decb hb).1 ha
  unfold feedByte at hu
  cases hstep : byteStep k b s with
  | memFault x l => simp [hstep] at hu
  | done ol v =>
    obtain ⟨hol, -⟩ := byteStep_eq_done_iff.1 hstep
    simp only [hstep, Attempt.done.injEq] at hu
    rw [← hu.1, hol]
    exact ⟨rfl, rfl⟩

/-- Settles O33: the outcome is a table over the state, the class of the byte and the write index.
-/
theorem oneByteOneOutcome : Obligations.OneByteOneOutcome := by
  intro s t h k b r hinv hb ha x m
  obtain ⟨ho, hl⟩ := record_of_answers_decb hb ha
  obtain ⟨hne, -, hother⟩ := transition_outcome m x b
  have hw : x.widx.toNat ≤ x.cap.toNat := (hinv.2.2 x (session_mem (validSession_lt hb.1))).1
  have hcontinue : r.outcome ≠ .ERROR → r.outcome ≠ .OVERFLOW → r.outcome ≠ .COMPLETE →
      r.outcome = .CONTINUE := by
    have hne' : r.outcome ≠ .EMPTY := ho ▸ hne
    cases hr : r.outcome <;> simp_all
  obtain ⟨herror, hoverflow, hcomplete⟩ := transition_outcome_iff (m := m) (b := b) hw
  rw [ho] at hcontinue ⊢
  rw [hl]
  exact ⟨herror, hoverflow, hcomplete, hcontinue, fun hc => (hother hc).1⟩

/-! ### DECN -/

/-- Settles O35: over real storage the loop ends, and its record counts all bytes or the stopping
one. -/
theorem decnCompletes : Obligations.DecnCompletes := by
  intro s h k a n _ hb hr hw
  have hk := validSession_lt hb.1
  obtain ⟨r, u, hc⟩ := consume_done_of_real (a := a.toNat) (n := n.toNat) (i := 0) hk
    (fun j _ hj => hr j (by omega)) hw
  have hd := (consume_decodes hk).1 r u hc
  have hrep := consume_reports hk hc
  have hn := n.isLt
  refine ⟨u.respond r, r, (answers_decn hb).2 ⟨u, hc, rfl⟩, hd.params, hd.pending, ?_⟩
  obtain rfl | ⟨j, hj, o, len, ho, rfl⟩ := consume_result hc
  · simp
  · have hcount : (BitVec.ofNat 32 (0 + j + 1)).toNat = j + 1 := by
      rw [BitVec.toNat_ofNat, Nat.mod_eq_of_lt (by omega), Nat.zero_add]
    refine ⟨by rw [hcount]; exact hj, fun h => absurd h ho, fun _ => ⟨by rw [hcount]; omega, ?_⟩⟩
    have hne := hrep.ne_empty
    cases o <;> simp_all

/-- A command on a bound session leaves it bound, so the same handle still binds it. -/
theorem DecodesFrom.bindsSession (hd : DecodesFrom k s u) (hb : s.bindsSession h k) :
    u.bindsSession h k :=
  ⟨(validSession_congr hd.nsess).trans hb.1, hd.bound.trans hb.2⟩

/-- One byte of DECN is that byte of DECB, with the byte counted (R95, R97). -/
theorem consume_one_done (hk : k < s.nsess) (ha : s.allows (a + i) .R = true)
    (hb : feedByte k (s.mem.read (a + i)) s = .done r t) :
    consume k a 1 i s = .done { r with consumed := BitVec.ofNat 32 (i + 1) } t := by
  have hrep := feedByte_reports hk hb
  unfold feedByte at hb
  cases hstep : byteStep k (s.mem.read (a + i)) s with
  | memFault x l => simp [hstep] at hb
  | done ol v =>
    obtain ⟨o, len⟩ := ol
    simp only [hstep, Attempt.done.injEq] at hb
    obtain ⟨rfl, rfl⟩ := hb
    by_cases ho : o = .CONTINUE
    · subst ho
      have hlen : len = 0 := (hrep.other (by simp [byteResult])).1
      rw [consume_continue ha hstep, hlen]
      rfl
    · exact consume_stop ha hstep ho

theorem consume_one_fault {x : Nat} {l : State} (ha : s.allows (a + i) .R = true)
    (hb : feedByte k (s.mem.read (a + i)) s = .memFault x l) :
    consume k a 1 i s = .memFault x l := by
  unfold feedByte at hb
  cases hstep : byteStep k (s.mem.read (a + i)) s with
  | memFault y m =>
    simp only [hstep] at hb
    rw [consume_fault ha hstep, hb]
  | done ol v => simp [hstep] at hb

/-- DECB after a record was returned does what it did before (R27). -/
theorem feedByte_respond (b : Byte) (s : State) (r : Result) :
    feedByte k b (s.respond r) = (feedByte k b s).mapState
      (fun t => { t with results := s.results ++ [r], pending := s.pending }) :=
  feedByte_inert (interface_inert k (s.results ++ [r]) s.pending) b s

theorem feedByte_of_answers_respond {b : Byte} {r' : Result} (hb : s.bindsSession h k)
    (ha : answers (.decb h b) (s.respond r) r' u) :
    feedByte k b s = .done r' { u with results := s.results } := by
  obtain ⟨v, hv, rfl⟩ := (answers_decb (s := s.respond r) (h := h) hb).1 ha
  rw [feedByte_respond] at hv
  cases hf : feedByte k b s with
  | memFault x l => simp [hf, Attempt.mapState] at hv
  | done q w =>
    simp only [hf, Attempt.mapState, Attempt.done.injEq] at hv
    obtain ⟨rfl, rfl⟩ := hv
    have hw := (feedByte_decodes (validSession_lt hb.1)).1 _ _ hf
    rw [← hw.results, ← hw.pending]
    rfl

theorem feedByte_of_fault_respond {b : Byte} {x : Nat} {l : State} (hb : s.bindsSession h k)
    (hf : exec (.decb h b) (s.respond r) = .fault (.memFault x l)) :
    feedByte k b s = .memFault x { l with results := s.results } := by
  rw [exec_decb (s := s.respond r) hb, finish_eq_fault_iff, feedByte_respond] at hf
  cases hf' : feedByte k b s with
  | done q w => simp [hf', Attempt.mapState] at hf
  | memFault y w =>
    simp only [hf', Attempt.mapState, Attempt.memFault.injEq] at hf
    obtain ⟨rfl, rfl⟩ := hf
    have hw := (feedByte_decodes (validSession_lt hb.1)).2 _ _ hf'
    rw [← hw.results, ← hw.pending]

/-- Settles O36: the loop over one byte more is the loop, and then, if that went on, the byte of
DECB. -/
theorem decnIsDecbRepeated : Obligations.DecnIsDecbRepeated := by
  intro s h k a hb
  refine ⟨exec_decn hb a 0, ?_⟩
  intro n hn shorter longer
  have hloop : ∀ j < addressLimit, exec (.decn h (.present a) (BitVec.ofNat 32 j)) s =
      finish (consume k a.toNat j 0 s) := fun j hj => by
    rw [exec_decn hb, BitVec.toNat_ofNat, Nat.mod_eq_of_lt hj]
  have hshort : shorter = finish (consume k a.toNat n 0 s) := hloop n (by omega)
  have hlong : longer = finish (consume k a.toNat (n + 1) 0 s) := hloop (n + 1) hn
  rw [consume_append, Nat.zero_add] at hlong
  rw [hshort, hlong]
  cases hc : consume k a.toNat n 0 s with
  | memFault x l => simp [finish]
  | done r₀ t₀ =>
    have hd := (consume_decodes (validSession_lt hb.1)).1 _ _ hc
    have hrecord : ∀ t r, finish (.done r₀ t₀) = .next t → t.results = s.results ++ [r] →
        t = t₀.respond r₀ ∧ r = r₀ := by
      intro t r ht hr
      obtain rfl := returns_eq_next_iff.1 ht
      rw [respond_results, hd.results] at hr
      exact ⟨rfl, by simpa using hr.symm⟩
    refine ⟨fun f hf => (by cases hf), fun t r ht hr ho => ?_, fun t r ht hr ho => ?_⟩
    · obtain ⟨-, rfl⟩ := hrecord t r ht hr
      simp only [if_neg ho, ht]
    · obtain ⟨rfl, rfl⟩ := hrecord t r ht hr
      have hb₀ : t₀.bindsSession h k := hd.bindsSession hb
      simp only [if_pos ho, respond_allows, respond_mem, ← hd.results]
      refine ⟨fun hal => ?_, fun hal => ⟨fun u r' hu => ?_, fun x l hf => ?_⟩⟩
      · rw [consume_unreadable hal]
        rfl
      · rw [consume_one_done (validSession_lt hb₀.1) hal (feedByte_of_answers_respond hb₀ hu)]
        rfl
      · rw [consume_one_fault hal (feedByte_of_fault_respond hb₀ hf)]
        rfl

/-- Settles O38: the loop reads the caller's bytes, since its stores do not reach them. -/
theorem decnReducesToRun : Obligations.DecnReducesToRun := by
  intro s t h k a n r hinv hb hap ha
  obtain ⟨u, hu, rfl⟩ := (answers_decn hb).1 ha
  obtain ⟨j, hj, hr, es, hrun, hcont, hstop⟩ := consume_run (validSession_lt hb.1) hinv.2.1
    (fun j _ hj q hq => hap j (by omega) q hq) 0 hu
  have hn := n.isLt
  have hcount : r.consumed.toNat = j := by
    rw [hr, Nat.zero_add, BitVec.toNat_ofNat, Nat.mod_eq_of_lt (by omega)]
  refine ⟨u, es, by rw [hcount]; exact hrun, rfl, rfl, fun ho => (hcont ho).2, fun ho => ?_⟩
  rw [(hstop ho).2, hcount, Nat.zero_add]

end Sys2Proof.Machine
end

section
/-! FEED and bulk decoding: whole streams presented as commands are `Run` (30_encoding.md R71;
40_decoder.md R99, R101). -/

namespace Sys2Proof.Machine

variable {f : State → State} {s t u : State} {k a n c i : Nat} {h : Handle} {r : Result}
  {rest : List Input}

/-- A change that decoding on the session cannot tell passes through `Run`. -/
theorem run_inert (hf : SessionInert f k) (w : List Byte) (i : Nat) (s : State) :
    run k w i (f s) = (run k w i s).mapState f := by
  induction w generalizing i s with
  | nil => rfl
  | cons b w ih =>
    simp only [run, byteStep_inert hf]
    cases byteStep k b s with
    | memFault x l => rfl
    | done ol v =>
      simp only [Attempt.mapState, ih]
      cases run k w (i + 1) v <;> rfl

/-! ### The outcomes that are not CONTINUE -/

/-- The outcomes and lengths of the events of `Run`. -/
def Event.outcomes (es : List Event) : List (OutcomeCode × Word) :=
  es.map (fun e => (e.outcome, e.length))

theorem delivered_append (rs qs : List Result) :
    delivered (rs ++ qs) = delivered rs ++ delivered qs := by
  simp [delivered]

theorem delivered_singleton (r : Result) :
    delivered [r] = if r.outcome = .CONTINUE then [] else [(r.outcome, r.length)] := by
  unfold delivered
  split <;> simp [*]

/-! ### FEED -/

/-- The step of a presented command is that command (R45, R63). -/
theorem step_of_presented (hacc : s.params.accepted s.nsess = true) (i : Instr)
    (hp : s.pending = .command (encode i) :: rest) :
    step s = exec i { s with pending := rest } := by
  rw [step_of_command hacc hp, performCommand, decode_encode]

theorem core_run_succ (hstep : step s = .next t) (n : Nat) :
    Host.Core.run Sys2Proof.core (n + 1) s = Host.Core.run Sys2Proof.core n t := by
  have hstep' : Sys2Proof.core.step s = .next t := hstep
  simp only [Host.Core.run, hstep']

/-- The state with other records returned and other inputs to come. -/
def State.withInterface (s : State) (rs : List Result) (ps : List Input) : State :=
  { s with results := rs, pending := ps }

theorem withInterface_inert (k : Nat) (rs : List Result) (ps : List Input) :
    SessionInert (fun t => t.withInterface rs ps) k :=
  interface_inert k rs ps

/-- A DECB presented to a bound session: the step is its byte, with its record. -/
theorem step_decb {b : Byte} {o : OutcomeCode} {len : Word}
    (hacc : s.params.accepted s.nsess = true) (hb : s.bindsSession h k)
    (hp : s.pending = .command (encode (.decb h b)) :: rest)
    (hstep : byteStep k b s = .done (o, len) t) :
    step s = .next (t.withInterface (s.results ++ [{ outcome := o, length := len }]) rest) := by
  have hinert := byteStep_inert (withInterface_inert k s.results rest) b s
  rw [hstep] at hinert
  have hbind : (s.withInterface s.results rest).bindsSession h k := hb
  calc step s = exec (.decb h b) (s.withInterface s.results rest) := step_of_presented hacc _ hp
    _ = _ := by rw [exec_decb hbind, feedByte, hinert]; rfl

/-- `Run` does not see what the caller was told and will do. -/
theorem run_of_withInterface {rs : List Result} {ps : List Input} {w : List Byte} {es : List Event}
    (hr : run k w i (s.withInterface rs ps) = .done es u) :
    ∃ v, run k w i s = .done es v ∧ u = v.withInterface rs ps := by
  rw [run_inert (withInterface_inert k rs ps)] at hr
  cases hs : run k w i s with
  | memFault x l => simp [hs, Attempt.mapState] at hr
  | done fs v =>
    simp only [hs, Attempt.mapState, Attempt.done.injEq] at hr
    obtain ⟨rfl, rfl⟩ := hr
    exact ⟨v, rfl, rfl⟩

/-- FEED on a session that may store every byte its capacity admits: one record per byte, and the
records that are not CONTINUE are the events of `Run` (R71, R101). -/
theorem feed_run (w : List Byte) (i : Nat) (hacc : s.params.accepted s.nsess = true)
    (hb : s.bindsSession h k) (hw : s.outputWritable k)
    (hp : s.pending = presented (feed h w) ++ rest) :
    ∃ es u rs, run k w i s = .done es u ∧
      Host.Core.run Sys2Proof.core w.length s = .next (u.withInterface (s.results ++ rs) rest) ∧
      rs.length = w.length ∧ delivered rs = Event.outcomes es ∧
      ∀ e ∈ es, i ≤ e.index ∧
        rs[e.index - i]? = some { outcome := e.outcome, length := e.length } := by
  induction w generalizing i s with
  | nil =>
    refine ⟨[], s, [], rfl, ?_, rfl, rfl, by simp⟩
    have hrest : s.pending = rest := hp
    rw [List.append_nil, ← hrest]
    rfl
  | cons b w ih =>
    obtain ⟨⟨o, len⟩, v, hstep⟩ := byteStep_done_of_writable b hw
    have hd := byteStep_decodes (validSession_lt hb.1) hstep
    have hfirst := step_decb (rest := presented (feed h w) ++ rest) hacc hb hp hstep
    obtain ⟨es, u, rs, hrun, hcore, hlen, hdel, hget⟩ :=
      ih (s := v.withInterface (s.results ++ [{ outcome := o, length := len }])
          (presented (feed h w) ++ rest)) (i + 1)
        (by rw [← hd.params, ← hd.nsess] at hacc; exact hacc) (hd.bindsSession hb)
        (hd.outputWritable hw) rfl
    obtain ⟨v', hrun', rfl⟩ := run_of_withInterface hrun
    refine ⟨_, v', { outcome := o, length := len } :: rs, run_cons hstep hrun', ?_,
      congrArg (· + 1) hlen, ?_, ?_⟩
    · rw [List.length_cons, core_run_succ hfirst, hcore]
      simp [State.withInterface]
    · rw [← List.singleton_append, delivered_append, delivered_singleton, hdel]
      split <;> simp [Event.outcomes]
    · have htail : ∀ e ∈ es, i ≤ e.index ∧
          ({ outcome := o, length := len } :: rs)[e.index - i]? =
            some { outcome := e.outcome, length := e.length } := by
        intro e he
        obtain ⟨hi, hr⟩ := hget e he
        obtain ⟨q, hq⟩ : ∃ q, e.index = i + 1 + q := ⟨e.index - (i + 1), by omega⟩
        rw [hq, Nat.add_sub_cancel_left] at hr
        rw [hq, show i + 1 + q - i = q + 1 by omega]
        exact ⟨by omega, hr⟩
      split
      · exact htail
      · rw [List.forall_mem_cons]
        exact ⟨⟨le_rfl, by simp⟩, htail⟩

/-- Settles O39: FEED is `Run` with the records beside it. -/
theorem feedReducesToRun : Obligations.FeedReducesToRun := by
  intro s h k w rest hinv hb hw hp
  obtain ⟨es, u, rs, hrun, hcore, hlen, hdel, hget⟩ := feed_run w 0 hinv.1 hb hw hp
  have hd := run_decodes (validSession_lt hb.1) hrun
  exact ⟨_, u, es, rs, hcore, hrun, rfl, rfl, hd.params, rfl, rfl, hlen, hdel,
    fun e he => (hget e he).2⟩

/-! ### Bulk decoding -/

/-- What bulk decoding of the `n` bytes from `a` on session `k` needs: a bound session that may
store every byte its capacity admits, and readable input that its stores do not reach. -/
structure Streamable (h : Handle) (k : Nat) (s : State) (a n : Nat) : Prop where
  bound : s.bindsSession h k
  wf : s.mem.wf
  inside : a + n < addressLimit
  readable : s.canRead a n
  writable : s.outputWritable k
  apart : apart a n (s.session k).out_base.toNat (s.session k).cap.toNat

/-- Decoding leaves the rest of the stream as it was. -/
theorem Streamable.remainder (hs : Streamable h k s a n) (hd : DecodesFrom k s u) {j : Nat}
    (hj : j ≤ n) :
    Streamable h k u (a + j) (n - j) ∧
      u.mem.bytes (a + j) (n - j) = s.mem.bytes (a + j) (n - j) := by
  have hin : a + n < 4294967296 := hs.inside
  refine ⟨⟨hd.bindsSession hs.bound, hd.wf hs.wf, by simp only [addressLimit]; omega,
    fun q hq => ?_, hd.outputWritable hs.writable, fun q hq p hp => ?_⟩, bytes_congr fun q hq => ?_⟩
  · rw [allows_congr hd.params, Nat.add_assoc]
    exact hs.readable _ (by omega)
  · rw [hd.cap] at hp
    rw [hd.out_base, Nat.add_assoc]
    exact hs.apart _ (by omega) _ hp
  · refine hd.mem hs.wf _ fun p hp => ?_
    rw [Nat.add_assoc]
    exact hs.apart _ (by omega) _ hp

/-- A DECN on the first bytes of a stream is `Run` over those it consumed, all of them or, with an
event on the last, at least one (R96, R97). -/
theorem Streamable.decn (hs : Streamable h k s a n) (hc : c ≤ n) (i : Nat)
    (ha : answers (.decn h (.present (BitVec.ofNat 32 a)) (BitVec.ofNat 32 c)) s r t) :
    ∃ u es, t = u.respond r ∧ r.consumed.toNat ≤ c ∧ (r.consumed.toNat = 0 → c = 0) ∧
      run k (s.mem.bytes a r.consumed.toNat) i s = .done es u ∧
      Event.outcomes es = delivered [r] := by
  have hin : a + n < 4294967296 := hs.inside
  obtain ⟨u, hu, ht⟩ := (answers_decn hs.bound).1 ha
  rw [BitVec.toNat_ofNat, Nat.mod_eq_of_lt (by omega), BitVec.toNat_ofNat,
    Nat.mod_eq_of_lt (by omega)] at hu
  obtain ⟨j, hj, hr, es, hrun, hcont, hstop⟩ := consume_run (validSession_lt hs.bound.1) hs.wf
    (fun j _ hj q hq => hs.apart j (by omega) q hq) i hu
  have hcount : r.consumed.toNat = j := by
    rw [hr, Nat.zero_add, BitVec.toNat_ofNat, Nat.mod_eq_of_lt (by omega)]
  rw [hcount, delivered_singleton]
  refine ⟨u, es, ht, hj, fun h0 => ?_, hrun, ?_⟩
  · by_contra hne
    by_cases ho : r.outcome = .CONTINUE
    · have := (hcont ho).1; omega
    · have := (hstop ho).1; omega
  · by_cases ho : r.outcome = .CONTINUE
    · rw [if_pos ho, (hcont ho).2]; rfl
    · rw [if_neg ho, (hstop ho).2]; rfl

theorem Streamable.respond (hs : Streamable h k s a n) (r : Result) :
    Streamable h k (s.respond r) a n :=
  ⟨hs.bound, hs.wf, hs.inside, hs.readable, hs.writable, hs.apart⟩

/-- What bulk decoding goes on with after a DECN that consumed `j` bytes of the first chunk. -/
theorem sum_remaining_chunks {j : Nat} (hj : j ≤ c) (cs : List Nat) :
    (if j = c then cs else (c - j) :: cs).sum = (c :: cs).sum - j := by
  split <;> simp <;> omega

/-- Bulk decoding of a stream, in any chunks, is `Run` over it (R99). -/
theorem bulkDecoded_run {chunks : List Nat} (hbulk : BulkDecoded h a chunks s t) (i : Nat)
    (hs : Streamable h k s a chunks.sum) :
    ∃ es u ts, run k (s.mem.bytes a chunks.sum) i s = .done es u ∧ t.sess = u.sess ∧
      t.mem = u.mem ∧ t.params = u.params ∧ t.results = s.results ++ ts ∧
      delivered ts = Event.outcomes es := by
  induction hbulk generalizing i with
  | done a s => exact ⟨[], s, [], rfl, rfl, rfl, rfl, by simp, rfl⟩
  | chunk a c cs s t u r hc ha hr _ ih =>
    have hle : c ≤ (c :: cs).sum := by simp
    obtain ⟨v, es, rfl, hj, -, hrun, hev⟩ := hs.decn hle i hr
    have hjle := hj.trans hle
    have hd := run_decodes (validSession_lt hs.bound.1) hrun
    obtain ⟨hrest, hbytes⟩ := hs.remainder hd hjle
    rw [sum_remaining_chunks hj] at ih
    obtain ⟨es', u', ts, hrun', hsess, hmem, hparams, hres, hdel⟩ :=
      ih (i + r.consumed.toNat) (hrest.respond r)
    obtain ⟨v', hv', rfl⟩ := run_of_withInterface (s := v) (rs := v.results ++ [r])
      (ps := v.pending) hrun'
    rw [respond_mem, hbytes] at hv'
    refine ⟨es ++ es', v', r :: ts, ?_, hsess, hmem, hparams, ?_, ?_⟩
    · rw [← Nat.add_sub_cancel' hjle, bytes_append]
      exact run_append hrun (by rwa [length_bytes])
    · rw [hres, respond_results, hd.results, List.append_assoc, List.singleton_append]
    · rw [← List.singleton_append, delivered_append, hdel, ← hev, Event.outcomes, Event.outcomes,
        Event.outcomes, List.map_append]

/-- Bulk decoding of a stream reaches an end: each DECN ends a chunk or consumes a byte of it. -/
theorem exists_bulkDecoded (m : Nat) {chunks : List Nat} (hm : chunks.sum + chunks.length ≤ m)
    (hs : Streamable h k s a chunks.sum) : ∃ t, BulkDecoded h a chunks s t := by
  induction m generalizing chunks s a with
  | zero =>
    obtain rfl : chunks = [] := List.length_eq_zero_iff.1 (by omega)
    exact ⟨s, .done a s⟩
  | succ m ih =>
    cases chunks with
    | nil => exact ⟨s, .done a s⟩
    | cons c cs =>
      have hin : a + (c :: cs).sum < 4294967296 := hs.inside
      have hle : c ≤ (c :: cs).sum := by simp
      have hmod : ∀ x < 4294967296, (BitVec.ofNat 32 x).toNat = x := fun x hx =>
        Nat.mod_eq_of_lt hx
      obtain ⟨r, v, hloop⟩ := consume_done_of_real (n := c) (i := 0) (validSession_lt hs.bound.1)
        (fun j _ hj => hs.readable j (by omega)) hs.writable
      have hr : answers (.decn h (.present (BitVec.ofNat 32 a)) (BitVec.ofNat 32 c)) s r
          (v.respond r) := (answers_decn hs.bound).2 ⟨v, by
        rw [hmod a (by omega), hmod c (by omega)]; exact hloop, rfl⟩
      obtain ⟨-, es, -, hj, hpos, hrun, -⟩ := hs.decn hle 0 hr
      have hd := (consume_decodes (validSession_lt hs.bound.1)).1 _ _ hloop
      have hrest := ((hs.remainder hd (hj.trans hle)).1).respond r
      rw [← sum_remaining_chunks hj] at hrest
      have hless : (if r.consumed.toNat = c then cs else (c - r.consumed.toNat) :: cs).sum +
          (if r.consumed.toNat = c then cs else (c - r.consumed.toNat) :: cs).length ≤ m := by
        simp only [List.sum_cons, List.length_cons] at hm
        split
        · omega
        · simp only [List.sum_cons, List.length_cons]
          omega
      obtain ⟨t, ht⟩ := ih hless hrest
      exact ⟨t, .chunk a c cs s _ t r (by simp only [addressLimit]; omega)
        (by simp only [addressLimit]; omega) hr ht⟩

/-- Settles O40: one DECB per byte and bulk decoding in any chunks are both `Run` over the stream.
-/
theorem chunkSizeIndependence : Obligations.ChunkSizeIndependence := by
  intro s h k a chunks hinv hb hp hin hr hw hap
  have hs : Streamable h k s a chunks.sum := ⟨hb, hinv.2.1, hin, hr, hw, hap⟩
  obtain ⟨es, u, rs, hrun, hcore, -, hdel, -⟩ :=
    feed_run (rest := []) _ 0 hinv.1 hb hw (by rw [hp, List.append_nil])
  rw [length_bytes] at hcore
  refine ⟨_, rs, hcore, rfl, exists_bulkDecoded _ le_rfl hs, fun t ht => ?_⟩
  obtain ⟨es', v, ts, hrun', hsess, hmem, hparams, hres, hdel'⟩ := bulkDecoded_run ht 0 hs
  obtain ⟨rfl, rfl⟩ := Attempt.done.inj (hrun.symm.trans hrun')
  exact ⟨hsess, hmem, hparams, ts, hres, hdel'.trans hdel.symm⟩

end Sys2Proof.Machine
end

section
/-! The wire format: the length of a frame and the code of its payload bytes (30_encoding.md
R53 to R58; 41_encoder.md R112, R113, R117). -/

namespace Sys2Proof.Machine

variable {m : Markers} {b : Byte} {P Q : List Byte}

theorem frameBody_nil (m : Markers) : frameBody m [] = [] := rfl

theorem frameBody_cons (m : Markers) (b : Byte) (P : List Byte) :
    frameBody m (b :: P) = escape m b ++ frameBody m P := by
  simp [frameBody]

theorem frameBody_append (m : Markers) (P Q : List Byte) :
    frameBody m (P ++ Q) = frameBody m P ++ frameBody m Q := by
  simp [frameBody]

theorem frame_eq (m : Markers) (P : List Byte) :
    frame m P = [m.END] ++ (frameBody m P ++ [m.END]) := by
  simp [frame]

/-- A literal is its own wire byte. -/
theorem escape_literal (hE : b ≠ m.END) (hS : b ≠ m.ESC) : escape m b = [b] := by
  rw [escape, if_neg hE, if_neg hS]

/-- A run of literals is its own escaped payload. -/
theorem frameBody_literals (hE : m.END ∉ P) (hS : m.ESC ∉ P) : frameBody m P = P := by
  induction P with
  | nil => rfl
  | cons b P ih =>
    simp only [List.mem_cons, not_or] at hE hS
    rw [frameBody_cons, escape_literal (Ne.symm hE.1) (Ne.symm hS.1), ih hE.2 hS.2]
    rfl

/-! ### Lengths -/

theorem length_escape (m : Markers) (b : Byte) :
    (escape m b).length = if b = m.END ∨ b = m.ESC then 2 else 1 := by
  unfold escape
  split_ifs <;> simp_all

theorem length_frameBody (m : Markers) (P : List Byte) :
    (frameBody m P).length = P.length + P.countP (fun b => b == m.END || b == m.ESC) := by
  induction P with
  | nil => rfl
  | cons b P ih =>
    rw [frameBody_cons, List.length_append, length_escape, ih, List.countP_cons, List.length_cons]
    by_cases hb : b = m.END ∨ b = m.ESC <;> simp [hb] <;> omega

theorem requiredLength_eq (m : Markers) (P : List Byte) :
    requiredLength m P = (frame m P).length := by
  rw [frame_eq, requiredLength, ← length_frameBody]
  simp

theorem requiredLength_le (m : Markers) (P : List Byte) :
    requiredLength m P ≤ 2 * P.length + 2 := by
  have := List.countP_le_length (p := fun b => b == m.END || b == m.ESC) (l := P)
  unfold requiredLength
  omega

/-- Settles O41: each byte takes one wire byte, and one more when it is END or ESC. -/
theorem frameLength : Obligations.FrameLength := by
  intro m P
  refine ⟨(requiredLength_eq m P).symm, requiredLength_eq m P, requiredLength_le m P, ?_⟩
  have hall : P.countP (fun b => b == m.END || b == m.ESC) = P.length ↔
      ∀ b ∈ P, b = m.END ∨ b = m.ESC := by
    simp [List.countP_eq_length]
  rw [← hall, requiredLength]
  omega

/-! ### The code of the payload bytes -/

/-- The wire bytes of a payload byte tell that byte and where they end (R110, R117). -/
theorem escape_append_inj (hm : m.distinct = true) {a b : Byte} {x y : List Byte}
    (h : escape m a ++ x = escape m b ++ y) : a = b ∧ x = y := by
  obtain ⟨-, -, -, -, -, hcodes⟩ := (markers_distinct_iff m).1 hm
  unfold escape at h
  split_ifs at h <;> simp_all

theorem escape_ne_nil (m : Markers) (b : Byte) : escape m b ≠ [] := by
  unfold escape
  split_ifs <;> simp

theorem frameBody_injective (hm : m.distinct = true) (h : frameBody m P = frameBody m Q) :
    P = Q := by
  induction P generalizing Q with
  | nil =>
    cases Q with
    | nil => rfl
    | cons b Q => simp [frameBody_nil, frameBody_cons, escape_ne_nil] at h
  | cons a P ih =>
    cases Q with
    | nil => simp [frameBody_nil, frameBody_cons, escape_ne_nil] at h
    | cons b Q =>
      rw [frameBody_cons, frameBody_cons] at h
      obtain ⟨rfl, hrest⟩ := escape_append_inj hm h
      rw [ih hrest]

/-- Settles O42: between its two boundaries a frame is the escaped payload, and escaping loses
nothing (R117). -/
theorem framesAreInjective : Obligations.FramesAreInjective := by
  intro m P Q hm h
  rw [frame_eq, frame_eq, List.append_right_inj, List.append_left_inj] at h
  exact frameBody_injective hm h

end Sys2Proof.Machine
end

section
/-! The decoder over whole frames: delivery, resynchronisation and the capacity boundary
(40_decoder.md R102 to R105; 70_reset_and_hazards.md R149, R150). -/

namespace Sys2Proof.Machine

variable {s t u : State} {k n i : Nat} {b x y : Byte} {P g w : List Byte}

/-! ### The frame's pieces on one session -/

/-- The state with the frame of `k` in progress opened, or opened again. -/
def State.opened (s : State) (k : Nat) : State :=
  s.setSession k { s.session k with state := .ACTIVE, widx := 0 }

/-- The state after session `k` delivered the payload `P`. -/
def State.afterFrame (s : State) (k : Nat) (P : List Byte) : State :=
  { s with
    mem := s.mem.writeAll (s.session k).out_base.toNat P
    sess := s.sess.set k { s.session k with
      state := .ACTIVE, widx := 0, frame_len := BitVec.ofNat 32 P.length } }

@[simp] theorem opened_params : (s.opened k).params = s.params := rfl
@[simp] theorem opened_mem : (s.opened k).mem = s.mem := rfl
@[simp] theorem opened_nsess : (s.opened k).nsess = s.nsess := setSession_nsess _ _ _
@[simp] theorem afterFrame_params : (s.afterFrame k P).params = s.params := rfl
@[simp] theorem afterFrame_nsess : (s.afterFrame k P).nsess = s.nsess := by
  simp [State.nsess, State.afterFrame]

@[simp] theorem stored_params : (s.stored k P).params = s.params := rfl

theorem opened_session (hk : k < s.nsess) :
    (s.opened k).session k = { s.session k with state := .ACTIVE, widx := 0 } :=
  session_setSession_same _ hk

theorem afterFrame_session (hk : k < s.nsess) : (s.afterFrame k P).session k =
    { s.session k with state := .ACTIVE, widx := 0, frame_len := BitVec.ofNat 32 P.length } := by
  have hk' : k < s.sess.length := hk
  simp [State.session, State.afterFrame, hk']

theorem opened_writable (hk : k < s.nsess) (ho : s.outputWritable k) :
    (s.opened k).outputWritable k := by
  unfold State.outputWritable
  rw [opened_session hk]
  exact ho

theorem opened_afterFrame (hk : k < s.nsess) :
    (s.opened k).afterFrame k P = s.afterFrame k P := by
  unfold State.afterFrame
  rw [opened_session hk]
  simp [State.opened, State.setSession]

/-- The bytes a session may store all lie inside the address space (R32, R40). -/
theorem output_inside (ho : s.outputWritable k) (hn : n ≤ (s.session k).cap.toNat) :
    (s.session k).out_base.toNat + n ≤ addressLimit := by
  cases n with
  | zero => exact (s.session k).out_base.isLt.le
  | succ n => exact allows_lt (ho n hn)

/-- After the delivery the buffer holds the payload, and no other byte changed (R102). -/
theorem afterFrame_bytes (hm : s.mem.wf) (ho : s.outputWritable k)
    (hP : P.length ≤ (s.session k).cap.toNat) :
    (s.afterFrame k P).mem.bytes (s.session k).out_base.toNat P.length = P :=
  bytes_writeAll hm (output_inside ho hP)

theorem afterFrame_sameOutside (hm : s.mem.wf) (ho : s.outputWritable k)
    (hP : P.length ≤ (s.session k).cap.toNat) :
    s.mem.sameOutside (s.afterFrame k P).mem (s.session k).out_base.toNat P.length :=
  fun _ hx => read_writeAll_other hm (output_inside ho hP) hx

/-- What follows the opening END of a frame delivers it (R83, R88). -/
theorem run_body_close (hd : s.params.markers.distinct = true) (hk : k < s.nsess)
    (hs : (s.session k).state = .ACTIVE) (hw : (s.session k).widx = 0)
    (ho : s.outputWritable k) (hP : P ≠ []) (hfit : P.length ≤ (s.session k).cap.toNat) :
    run k (frameBody s.params.markers P ++ [s.params.markers.END]) i s =
      .done [⟨i + (frameBody s.params.markers P).length, .COMPLETE, BitVec.ofNat 32 P.length⟩]
        (s.afterFrame k P) := by
  have hlen : 0 < P.length := List.length_pos_iff.2 hP
  have hcap := (s.session k).cap.isLt
  have hbody := run_body_stores (i := i) (P := P) hd hk hs (by simpa [hw] using hfit) ho
  have hsess : (s.stored k P).session k =
      { s.session k with widx := BitVec.ofNat 32 P.length } := by
    rw [stored_session hk, hw]
    simp
  have hne : (BitVec.ofNat 32 P.length : Word) ≠ 0 := fun h => by
    have hmod : P.length % 2 ^ 32 = 0 := by simpa using congrArg BitVec.toNat h
    omega
  have hclose := run_close (i := i + (frameBody s.params.markers P).length) (s := s.stored k P)
    (k := k) (by rw [hsess]; exact hs) (by rw [hsess]; exact hne)
  rw [hsess] at hclose
  refine (run_append hbody hclose).trans ?_
  simp [State.afterFrame, State.stored, State.setSession, hs, hw]

/-- A frame that opens on the session delivers its payload (R102). -/
theorem run_frame (hd : s.params.markers.distinct = true) (hk : k < s.nsess)
    (hs : (s.session k).state = .IDLE ∨ ((s.session k).state = .ACTIVE ∧ (s.session k).widx = 0))
    (ho : s.outputWritable k) (hP : P ≠ []) (hfit : P.length ≤ (s.session k).cap.toNat) :
    run k (frame s.params.markers P) i s =
      .done [⟨i + (frame s.params.markers P).length - 1, .COMPLETE, BitVec.ofNat 32 P.length⟩]
        (s.afterFrame k P) := by
  have hsess := opened_session hk
  have hrest := run_body_close (s := s.opened k) (i := i + 1) (P := P) hd (by simpa using hk)
    (by rw [hsess]) (by rw [hsess]) (opened_writable hk ho) hP (by rw [hsess]; exact hfit)
  rw [opened_afterFrame hk, opened_params] at hrest
  rw [frame_eq, run_append (run_open hs) hrest]
  simp
  omega

/-! ### The statements -/

/-- Settles O43: a non-empty frame is delivered, and an empty one only opens a frame twice. -/
theorem runOverAFrameDeliversIt : Obligations.RunOverAFrameDeliversIt := by
  intro s h k P hinv hb ho hfit hs
  have hk := validSession_lt hb.1
  have hd := distinct_of_accepted hinv.1
  by_cases hP : P = []
  · subst hP
    refine ⟨s.opened k, ?_, rfl, rfl, fun _ _ => rfl⟩
    have hsess := opened_session hk
    have hagain := run_open (i := 1) (s := s.opened k) (k := k)
      (.inr (by rw [hsess]; exact ⟨rfl, rfl⟩))
    refine (run_append (w' := [s.params.markers.END]) (run_open hs) hagain).trans ?_
    rw [hsess]
    simp [State.opened]
  · refine ⟨s.afterFrame k P, ?_, ?_, afterFrame_bytes hinv.2.1 ho hfit,
      afterFrame_sameOutside hinv.2.1 ho hfit⟩
    · rw [run_frame hd hk hs ho hP hfit, if_neg hP, Nat.zero_add]
    · simp [State.afterFrame, hP]

/-- Settles O45: IDLE discards the garbage, and the frame then opens on it. -/
theorem resynchronisesAfterGarbage : Obligations.ResynchronisesAfterGarbage := by
  intro s h k g P hinv hb ho hfit hP hs hg
  have hk := validSession_lt hb.1
  refine ⟨s.afterFrame k P, ?_, afterFrame_session hk, afterFrame_bytes hinv.2.1 ho hfit⟩
  rw [run_append (run_noise hs hg)
    (run_frame (distinct_of_accepted hinv.1) hk (.inl hs) ho hP hfit)]
  simp

/-- Settles O48: after a COMPLETE the frame is open already, and a run of literals is its own
escaped payload. -/
theorem noiseAfterAFrameIsDelivered : Obligations.NoiseAfterAFrameIsDelivered := by
  intro s h k g hinv hb ho hg hfit hs hw hE hS
  have hk := validSession_lt hb.1
  have hrun := run_body_close (i := 0) (distinct_of_accepted hinv.1) hk hs hw ho hg hfit
  rw [frameBody_literals hE hS, Nat.zero_add] at hrun
  exact ⟨s.afterFrame k g, hrun, afterFrame_session hk, afterFrame_bytes hinv.2.1 ho hfit⟩

/-- After an abort the rest of a frame is noise up to its last byte, which opens the next one (R150,
R105). -/
theorem run_rest_of_aborted (hd : s.params.markers.distinct = true) (hk : k < s.nsess)
    (P : List Byte) :
    run k (frameBody s.params.markers P ++ [s.params.markers.END]) i
        (s.setSession k (s.session k).abort) =
      .done [] (s.opened k) := by
  have hidle : (s.setSession k (s.session k).abort).session k = (s.session k).abort :=
    session_setSession_same _ hk
  have hnoise := run_noise (i := i) (s := s.setSession k (s.session k).abort) (k := k)
    (by rw [hidle]; rfl) (end_not_mem_body _ hd P)
  have hopen := run_open (i := i + (frameBody s.params.markers P).length)
    (s := s.setSession k (s.session k).abort) (k := k) (.inl (by rw [hidle]; rfl))
  rw [hidle, setSession_params, setSession_setSession] at hopen
  exact run_append hnoise hopen

/-- Settles O49: END is no escape code, so the rest of the frame arrives after an abort. -/
theorem endAfterEscLosesTheNextFrame : Obligations.EndAfterEscLosesTheNextFrame := by
  intro s h k P hinv hb hs
  have hd := distinct_of_accepted hinv.1
  obtain ⟨-, hEE, hEC, -⟩ := (markers_distinct_iff _).1 hd
  have ht := transition_escaped_invalid (x := s.session k) hs (unescape_eq_none hEE hEC)
  have hfirst := run_quiet (i := 0) (s := s) (k := k) (b := s.params.markers.END) (by rw [ht]; rfl)
  rw [ht] at hfirst
  rw [frame_eq]
  exact run_append hfirst (run_rest_of_aborted hd (validSession_lt hb.1) P)

theorem frameBody_literal {m : Markers} (hE : b ≠ m.END) (hS : b ≠ m.ESC) :
    frameBody m [b] = [b] :=
  frameBody_literals (by simpa using hE.symm) (by simpa using hS.symm)

theorem afterFrame_read (hm : s.mem.wf) (ho : s.outputWritable k)
    (hcap : 1 ≤ (s.session k).cap.toNat) :
    (s.afterFrame k [b]).mem.read (s.session k).out_base.toNat = b := by
  simpa [bytes_succ] using afterFrame_bytes (P := [b]) hm ho hcap

/-- Settles O46: the END between the two bytes completes the first frame and opens the second. -/
theorem sharedBoundaryDeliversBothFrames : Obligations.SharedBoundaryDeliversBothFrames := by
  intro s h k x y hinv hb ho hcap hs hxE hxS hyE hyS E
  have hk := validSession_lt hb.1
  have hd := distinct_of_accepted hinv.1
  have hsess := afterFrame_session (P := [x]) hk
  have hfirst := run_frame (i := 0) (P := [x]) hd hk (.inl hs) ho (by simp) hcap
  rw [frame_eq, frameBody_literal hxE hxS] at hfirst
  have hw' := (run_decodes hk hfirst).outputWritable ho
  have hm' := (run_decodes hk hfirst).wf hinv.2.1
  have hsecond := run_body_close (s := s.afterFrame k [x]) (i := 3) (P := [y]) hd
    (by simpa using hk) (by rw [hsess]) (by rw [hsess]) hw' (by simp) (by rw [hsess]; exact hcap)
  rw [afterFrame_params, frameBody_literal hyE hyS] at hsecond
  refine ⟨s.afterFrame k [x], (s.afterFrame k [x]).afterFrame k [y], hfirst,
    afterFrame_read hinv.2.1 ho hcap, run_append hfirst hsecond, ?_, ?_⟩
  · have := afterFrame_read (b := y) hm' hw' (by rw [hsess]; exact hcap)
    rwa [hsess] at this
  · rw [afterFrame_session (by simpa using hk), hsess]
    rfl

/-- Every byte in ACTIVE after an ESC that is no escape code aborts the frame (R84, R90). -/
theorem run_invalid_escape (hd : s.params.markers.distinct = true) (hk : k < s.nsess)
    (hs : (s.session k).state = .ACTIVE) (hE : b ≠ s.params.markers.ESC_END)
    (hS : b ≠ s.params.markers.ESC_ESC) :
    run k [s.params.markers.ESC, b] i s =
      .done [⟨i + 1, .ERROR, 0⟩] (s.setSession k (s.session k).abort) := by
  obtain ⟨hne, -⟩ := (markers_distinct_iff _).1 hd
  have hesc := transition_active_esc (m := s.params.markers) hs hne.symm
  have hsess : (s.setSession k { s.session k with state := .ESCAPED }).session k =
      { s.session k with state := .ESCAPED } := session_setSession_same _ hk
  have hbad := transition_escaped_invalid (x := { s.session k with state := .ESCAPED }) rfl
    (unescape_eq_none hE hS)
  have h1 := run_quiet (i := i) (s := s) (k := k) (b := s.params.markers.ESC) (by rw [hesc]; rfl)
  rw [hesc] at h1
  have h2 := run_quiet (i := i + 1) (b := b) (k := k)
    (s := s.setSession k { s.session k with state := .ESCAPED })
    (by rw [setSession_params, hsess, hbad]; rfl)
  rw [setSession_params, hsess, hbad, setSession_setSession] at h2
  exact run_append (w := [s.params.markers.ESC]) h1 h2

/-- A frame that opens on the session, up to a payload that fits, is stored (R80, R82, R86, R88). -/
theorem run_open_body (hd : s.params.markers.distinct = true) (hk : k < s.nsess)
    (hs : (s.session k).state = .IDLE ∨ ((s.session k).state = .ACTIVE ∧ (s.session k).widx = 0))
    (ho : s.outputWritable k) (hfit : P.length ≤ (s.session k).cap.toNat) :
    run k ([s.params.markers.END] ++ frameBody s.params.markers P) i s =
      .done [] ((s.opened k).stored k P) := by
  have hsess := opened_session hk
  exact run_append (run_open hs) (run_body_stores (s := s.opened k) hd (by simpa using hk)
    (by rw [hsess]) (by rw [hsess]; simpa using hfit) (opened_writable hk ho))

theorem opened_stored_session (hk : k < s.nsess) : ((s.opened k).stored k P).session k =
    { s.session k with state := .ACTIVE, widx := BitVec.ofNat 32 P.length } := by
  rw [stored_session (by simpa using hk), opened_session hk]
  simp

@[simp] theorem opened_stored_nsess : ((s.opened k).stored k P).nsess = s.nsess := by
  simp [State.nsess, State.stored, State.opened]

theorem opened_stored_mem (hk : k < s.nsess) : ((s.opened k).stored k P).mem =
    s.mem.writeAll (s.session k).out_base.toNat P := by
  rw [State.stored, opened_session hk]
  rfl

/-- Settles O50: 0xFF is no escape code, so the first frame is lost and the END after it opens the
second. -/
theorem sourceErrorExample : Obligations.SourceErrorExample := by
  intro s h k hinv hadm hb ho hcap hs m
  have hk := validSession_lt hb.1
  have hd := distinct_of_accepted hinv.1
  simp only [Markers.admitExamples, List.all_cons, Bool.and_eq_true, bne_iff_ne] at hadm
  obtain ⟨⟨⟨⟨h1E, h1S⟩, ⟨h2E, h2S⟩, -⟩, hFE⟩, hFS⟩ := hadm
  have hopen := run_open_body (i := 0) (P := [0x01]) hd hk (.inl hs) ho hcap
  rw [frameBody_literal h1E h1S] at hopen
  have hlost := run_invalid_escape (i := 2) (s := (s.opened k).stored k [0x01]) (k := k) (b := 0xFF)
    hd (by simpa using hk) (by rw [opened_stored_session hk]) hFE hFS
  have hfirst := run_append hopen hlost
  generalize hv : ((s.opened k).stored k [0x01]).setSession k
    (((s.opened k).stored k [0x01]).session k).abort = v at hfirst
  have hd' := run_decodes hk hfirst
  have hsess : v.session k = (s.session k).abort := by
    rw [← hv, session_setSession_same _ (by simpa using hk), opened_stored_session hk]
    rfl
  have hk' : k < v.nsess := by rw [hd'.nsess]; exact hk
  have hcap' : 1 ≤ (v.session k).cap.toNat := by rw [hd'.cap]; exact hcap
  have ho' := hd'.outputWritable ho
  have hsecond := run_frame (s := v) (k := k) (i := 4) (P := [0x02])
    (by rw [hd'.params]; exact hd) hk' (.inl (by rw [hsess]; rfl)) ho' (by simp) hcap'
  rw [hd'.params, frame_eq, frameBody_literal h2E h2S] at hsecond
  refine ⟨v.afterFrame k [0x02], run_append hfirst hsecond, ?_, ?_⟩
  · rw [← hd'.out_base]
    exact afterFrame_read (hd'.wf hinv.2.1) ho' hcap'
  · rw [afterFrame_session hk', hsess]
    rfl

/-- Settles O47: the payload splits into the bytes that fit, the byte that overflows and the rest,
which is lost. -/
theorem capacityBoundary : Obligations.CapacityBoundary := by
  intro s h k P hinv hb ho hlong hs
  have hk := validSession_lt hb.1
  have hd := distinct_of_accepted hinv.1
  generalize hc : (s.session k).cap.toNat = c at hlong ⊢
  obtain ⟨A, b, B, hA, rfl⟩ : ∃ A b B, A.length = c ∧ P = A ++ b :: B :=
    ⟨P.take c, P[c], P.drop (c + 1), by simp; omega, by simp⟩
  have htake : (A ++ b :: B).take c = A := by simp [← hA]
  have htake' : (A ++ b :: B).take (c + 1) = A ++ [b] := by simp [← hA, List.take_append]
  have hfit : A.length ≤ (s.session k).cap.toNat := by omega
  have hopen := run_open_body (i := 0) (P := A) hd hk hs ho hfit
  have hsess := opened_stored_session (P := A) hk
  have hover := run_escape_overflows (s := (s.opened k).stored k A)
    (i := 0 + ([s.params.markers.END] ++ frameBody s.params.markers A).length)
    hd (by simpa using hk) (by rw [hsess]) (by rw [hsess, hA, ← hc, BitVec.ofNat_toNat]; simp) b
  have hrest := fun i => run_rest_of_aborted (s := (s.opened k).stored k A) (i := i)
    hd (by simpa using hk) B
  have hwire : frame s.params.markers (A ++ b :: B) =
      [s.params.markers.END] ++ frameBody s.params.markers A ++ (escape s.params.markers b ++
        (frameBody s.params.markers B ++ [s.params.markers.END])) := by
    rw [frame_eq, frameBody_append, frameBody_cons]
    simp
  refine ⟨((s.opened k).stored k A).opened k, ?_, ?_, ?_, ?_⟩
  · rw [hwire, htake', frameBody_append, frameBody_cons, frameBody_nil]
    refine (run_append hopen (run_append hover (hrest _))).trans ?_
    simp
  · rw [opened_session (by simpa using hk), hsess]
  · rw [opened_mem, opened_stored_mem hk, htake, ← hA]
    exact bytes_writeAll hinv.2.1 (output_inside ho hfit)
  · rw [opened_mem, opened_stored_mem hk, ← hA]
    exact fun _ hx => read_writeAll_other hinv.2.1 (output_inside ho hfit) hx

end Sys2Proof.Machine
end

section
/-! ENC: the frame of the payload as ENC reads it, written as far as the capacity and the access
check allow (41_encoder.md R106 to R116; 20_memory.md R44). -/

namespace Sys2Proof.Machine

variable {s t u : State} {p n o c i j k q : Nat} {P : List Byte}

/-! ### Frames of initial payload bytes -/

theorem length_frame (m : Markers) (P : List Byte) :
    (frame m P).length = (frameBody m P).length + 2 := by
  simp [frame_eq]

/-- A frame begins with its opening END and the escaped bytes of any initial part of its payload. -/
theorem frame_eq_append (m : Markers) (P : List Byte) (i : Nat) :
    frame m P = (m.END :: frameBody m (P.take i)) ++ (frameBody m (P.drop i) ++ [m.END]) := by
  conv_lhs => rw [← List.take_append_drop i P]
  rw [frame_eq, frameBody_append]
  simp

/-- A run of writable bytes lies inside the address space (R32, R40). -/
theorem canWrite_inside (hw : s.canWrite o n) (ho : o < addressLimit) : o + n ≤ addressLimit := by
  cases n with
  | zero => exact ho.le
  | succ n => exact allows_lt (hw n (by omega))

/-! ### The payload as ENC reads it -/

/-- Payload byte `i` as ENC reads it: the frame's, where the output bytes before its own encoding
cover it, and the caller's elsewhere (R44). -/
def seenByte (s : State) (P : List Byte) (p o i : Nat) : Byte :=
  if o ≤ p + i ∧ p + i < o + 1 + (frameBody s.params.markers (P.take i)).length
  then (frame s.params.markers P).getD (p + i - o) 0
  else s.mem.read (p + i)

/-- It is the byte that the memory holds once the frame is written up to there. -/
theorem read_seenByte (hm : s.mem.wf)
    (hw : s.canWrite o (1 + (frameBody s.params.markers (P.take i)).length)) :
    (s.mem.writeAll o
      (s.params.markers.END :: frameBody s.params.markers (P.take i))).read (p + i) =
      seenByte s P p o i := by
  have hin : o + (1 + (frameBody s.params.markers (P.take i)).length) ≤ addressLimit :=
    canWrite_inside hw (by simpa using allows_lt (hw 0 (by omega)))
  have hlen : (s.params.markers.END :: frameBody s.params.markers (P.take i)).length =
      1 + (frameBody s.params.markers (P.take i)).length := by
    rw [List.length_cons, Nat.add_comm]
  rw [read_writeAll hm (by rw [hlen]; exact hin), hlen, seenByte, ← Nat.add_assoc]
  refine ite_congr rfl (fun hin => ?_) (fun _ => rfl)
  rw [frame_eq_append _ P i, List.getD_append _ _ _ _ (by rw [hlen]; omega)]

/-- Some payload is what ENC reads, whatever overlaps. -/
theorem exists_seen (s : State) (p o n : Nat) : ∃ P : List Byte, P.length = n ∧
    ∀ j < n, P[j]? = some ((s.mem.writeAll o
      (s.params.markers.END :: frameBody s.params.markers (P.take j))).read (p + j)) := by
  induction n with
  | zero => exact ⟨[], rfl, by simp⟩
  | succ n ih =>
    obtain ⟨P, rfl, hP⟩ := ih
    refine ⟨P ++ [(s.mem.writeAll o
      (s.params.markers.END :: frameBody s.params.markers P)).read (p + P.length)], by simp,
      fun j hj => ?_⟩
    rw [List.take_append_of_le_length (by omega)]
    obtain hlt | rfl : j < P.length ∨ j = P.length := by omega
    · rw [List.getElem?_append_left hlt, hP j hlt]
    · simp

/-- The opening END and the payload are `Emit` of their wire bytes, on the bytes ENC reads (R109).
-/
theorem emitPayload_opened_eq
    (h : ∀ j < P.length, 1 + (frameBody u.params.markers (P.take j)).length ≤ c →
      u.canWrite o (1 + (frameBody u.params.markers (P.take j)).length) →
      u.allows (p + j) .R = true ∧
        P[j]? = some ((u.mem.writeAll o
          (u.params.markers.END :: frameBody u.params.markers (P.take j))).read (p + j))) :
    (emit o c u.params.markers.END 0 u).andThen (emitPayload p o c P.length 0) =
      emitAll o c (u.params.markers.END :: frameBody u.params.markers P) 0 u := by
  show _ = (emit o c u.params.markers.END 0 u).andThen
    (emitAll o c (frameBody u.params.markers P))
  cases e : emit o c u.params.markers.END 0 u with
  | full u' => rfl
  | memFault x u' => rfl
  | going k' u' =>
    obtain ⟨rfl, hk', rfl, hal⟩ := emitAll_going (Nat.zero_le _) ((emitAll_singleton ..).trans e)
    refine emitPayload_eq hk' fun j hj hc hw => ?_
    have hwritable : u.canWrite o (1 + (frameBody u.params.markers (P.take j)).length) := by
      intro q hq
      cases q with
      | zero => exact hal 0 (by simp)
      | succ q =>
        have hq' := (allows_congr (s := u) rfl .W).symm.trans (hw q (by simp only; omega))
        rwa [List.length_singleton, Nat.zero_add, Nat.add_assoc, Nat.add_comm 1] at hq'
    have hseen := h j hj (by simpa [Nat.add_comm] using hc) hwritable
    rw [Nat.add_zero]
    exact ⟨(allows_congr rfl _).trans hseen.1, hseen.2⟩

/-- The frame of a payload that ENC reads so: `emitFrame` is `Emit` of the frame, as far as every
byte it reaches may be read (R44, R109). -/
theorem emitFrame_eq_of_seenByte (hm : s.mem.wf)
    (hseen : ∀ i < P.length, P[i]? = some (seenByte s P p o i))
    (hr : ∀ i < P.length, 1 + (frameBody s.params.markers (P.take i)).length ≤ c →
      s.canWrite o (1 + (frameBody s.params.markers (P.take i)).length) →
      s.allows (p + i) .R = true) :
    emitFrame p P.length o c s = emitAll o c (frame s.params.markers P) 0 s := by
  refine emitFrame_eq_of_seen fun j hj hc hw => ⟨hr j hj hc hw, ?_⟩
  rw [hseen j hj, read_seenByte hm hw]

/-! ### ENC on the frame it emits -/

/-- `Emit` of a whole list over real storage writes it, or the part that fits (R108, R114). -/
theorem emitAll_of_writable {vs : List Byte} (hw : s.canWrite o (min vs.length c)) :
    emitAll o c vs 0 s =
      if vs.length ≤ c then .going vs.length { s with mem := s.mem.writeAll o vs }
      else .full { s with mem := s.mem.writeAll o (vs.take c) } := by
  have h := emitAll_eq (o := o) (u := s) (vs := vs) (Nat.zero_le c)
    (fun j hj hc => by rw [Nat.add_zero]; exact hw j (by omega))
  simpa only [Nat.zero_add, Nat.add_zero, Nat.sub_zero] using h

/-- ENC over real storage answers COMPLETE when the frame fits, and OVERFLOW with the part that fits
otherwise (R111, R114). -/
theorem exec_enc_of_emitAll {p n o c : Word} {vs : List Byte}
    (hf : emitFrame p.toNat n.toNat o.toNat c.toNat s = emitAll o.toNat c.toNat vs 0 s)
    (hw : s.canWrite o.toNat (min vs.length c.toNat)) :
    exec (.enc (.present p) n (.present o) (.value c)) s =
      if vs.length ≤ c.toNat then
        returns { outcome := .COMPLETE, length := BitVec.ofNat 32 vs.length }
          { s with mem := s.mem.writeAll o.toNat vs }
      else returns { outcome := .OVERFLOW }
        { s with mem := s.mem.writeAll o.toNat (vs.take c.toNat) } := by
  rw [exec_enc, hf, emitAll_of_writable hw]
  split <;> rfl

/-! ### The statements -/

/-- Settles O59: the effect of ENC, if it has one, is on its output buffer. -/
theorem encFrame : Obligations.EncFrame := by
  intro s t a b c n hinv hends
  obtain ⟨u, hu, hp, hsess, hm, hq⟩ := effect_of_ends hends
  rw [hp, hsess, hm, hq]
  cases hu with
  | none => exact ⟨rfl, rfl, rfl, fun _ _ => rfl⟩
  | bind k h a' n' hi => cases hi
  | decode k u hi hk => cases hk
  | enc p n' o c' u hi he =>
    cases hi
    exact ⟨he.params, he.sess, he.pending, he.mem hinv.2.1⟩

/-- Settles O56: some payload is what ENC reads, and its frame has between `n + 2` and `2n + 2`
bytes. -/
theorem encCompletes : Obligations.EncCompletes := by
  intro s p n o c hr hw
  obtain ⟨P, hP, hseen⟩ := exists_seen s p.toNat o.toNat n.toNat
  rw [← hP] at hr hseen ⊢
  have hf : emitFrame p.toNat n.toNat o.toNat c.toNat s =
      emitAll o.toNat c.toNat (frame s.params.markers P) 0 s := by
    rw [← hP]
    exact emitFrame_eq_of_seen fun j hj _ _ => ⟨hr j hj, hseen j hj⟩
  have hexec := exec_enc_of_emitAll hf fun j hj => hw j (by omega)
  have hmax := requiredLength_le s.params.markers P
  rw [requiredLength_eq] at hmax
  have hmin : P.length + 2 ≤ (frame s.params.markers P).length := by
    rw [length_frame, length_frameBody]
    omega
  by_cases hc : (frame s.params.markers P).length ≤ c.toNat
  · have hlen : (BitVec.ofNat 32 (frame s.params.markers P).length).toNat =
        (frame s.params.markers P).length := Nat.mod_eq_of_lt (hc.trans_lt c.isLt)
    rw [if_pos hc] at hexec
    refine ⟨_, _, ⟨hexec, rfl⟩, .inl ⟨rfl, ?_, ?_⟩, fun _ => rfl⟩
    · rw [hlen]; exact hmin
    · rw [hlen]; exact hc
  · rw [if_neg hc] at hexec
    exact ⟨_, _, ⟨hexec, rfl⟩, .inr ⟨rfl, rfl⟩, fun h => by omega⟩

/-- On a payload that its own output does not overlap, ENC emits the frame of the caller's bytes
(R109). -/
theorem emitFrame_of_apart {p n o c : Word} (hm : s.mem.wf) (hP : P.length = n.toNat)
    (hb : s.mem.bytes p.toNat n.toNat = P)
    (hr : ∀ i < n.toNat, 1 + (frameBody s.params.markers (P.take i)).length ≤ c.toNat →
      s.allows (p.toNat + i) .R = true)
    (hap : apart p.toNat n.toNat o.toNat (min (frame s.params.markers P).length c.toNat)) :
    emitFrame p.toNat n.toNat o.toNat c.toNat s =
      emitAll o.toNat c.toNat (frame s.params.markers P) 0 s := by
  rw [← hP] at hb hr hap ⊢
  exact emitFrame_eq hm hb hr fun j hj q hq hc => hap j hj q (by omega)

/-- Settles O53: the frame fits, so ENC writes all of it. -/
theorem encWritesTheFrame : Obligations.EncWritesTheFrame := by
  intro s P p n o c old hinv hP hb hc hr hw hap
  rw [requiredLength_eq] at hc hw hap ⊢
  have hm := hinv.2.1
  have hmin : min (frame s.params.markers P).length c.toNat = (frame s.params.markers P).length :=
    Nat.min_eq_left hc
  have hexec := exec_enc_of_emitAll
    (emitFrame_of_apart hm hP hb (fun i hi _ => hr i hi) (by rwa [hmin])) (by rwa [hmin])
  rw [if_pos hc] at hexec
  have hin := canWrite_inside hw o.isLt
  refine ⟨_, hexec, bytes_writeAll hm hin, fun x hx => read_writeAll_other hm hin hx, ?_⟩
  exact Nat.mod_eq_of_lt (hc.trans_lt c.isLt)

/-- Settles O54: the frame does not fit, so ENC writes its first bytes. -/
theorem encOverflowLeavesThePrefix : Obligations.EncOverflowLeavesThePrefix := by
  intro s P p n o c hinv hP hb hc hr hw hap
  rw [requiredLength_eq] at hc
  have hm := hinv.2.1
  have hmin : min (frame s.params.markers P).length c.toNat = c.toNat := Nat.min_eq_right hc.le
  have hexec := exec_enc_of_emitAll (emitFrame_of_apart hm hP hb hr (by rwa [hmin]))
    (by rwa [hmin])
  rw [if_neg (by omega)] at hexec
  have hlen : ((frame s.params.markers P).take c.toNat).length = c.toNat := by simp; omega
  have hin := canWrite_inside hw o.isLt
  rw [← hlen] at hin
  refine ⟨_, hexec, ?_, fun x hx => read_writeAll_other hm hin (by rwa [hlen]), rfl⟩
  have hbytes := bytes_writeAll hm hin
  rwa [hlen] at hbytes

/-- Settles O55: over real storage the length of the frame against the capacity decides. -/
theorem encSucceedsIffCapacitySuffices : Obligations.EncSucceedsIffCapacitySuffices := by
  intro s P p n o c hinv hP hb hr hw hap
  have hf := emitFrame_of_apart (o := o) (c := c) hinv.2.1 hP hb (fun i hi _ => hr i hi)
    (fun i hi j hj => hap i hi j (by omega))
  have hexec := exec_enc_of_emitAll hf (fun j hj => hw j (by omega))
  have hmax := requiredLength_le s.params.markers P
  rw [requiredLength_eq, hP] at hmax
  rw [requiredLength_eq]
  by_cases hc : (frame s.params.markers P).length ≤ c.toNat
  · rw [if_pos hc] at hexec
    refine ⟨_, _, ⟨hexec, rfl⟩, by simp [hc], fun _ => ?_, by simp, by simp⟩
    exact Nat.mod_eq_of_lt (hc.trans_lt c.isLt)
  · rw [if_neg hc] at hexec
    exact ⟨_, _, ⟨hexec, rfl⟩, by simp [hc], by simp, by simp, fun h => by omega⟩

end Sys2Proof.Machine
end

section
/-! ENC with overlapping buffers and with refused bytes: what it read, and where it stopped
(20_memory.md R40, R44; 41_encoder.md R116). -/

namespace Sys2Proof.Machine

variable {s t u : State} {p n o c i j k q : Nat} {P : List Byte}

/-! ### A completed ENC -/

theorem andThen_eq_going {e : Emission} {f : Nat → State → Emission}
    (h : e.andThen f = .going k u) : ∃ k' u', e = .going k' u' ∧ f k' u' = .going k u := by
  cases e with
  | going k' u' => exact ⟨k', u', rfl, h⟩
  | full u' => cases h
  | memFault a u' => cases h

/-- An ENC that went on to its end emitted the frame of the bytes it read (R44, R109). -/
theorem emitFrame_going (h : emitFrame p n o c s = .going k u) :
    ∃ P : List Byte, P.length = n ∧
      emitAll o c (frame s.params.markers P) 0 s = .going k u ∧
      ∀ j < n, P[j]? = some ((s.mem.writeAll o
        (s.params.markers.END :: frameBody s.params.markers (P.take j))).read (p + j)) := by
  obtain ⟨k₂, u₂, h₂, hclose⟩ := andThen_eq_going h
  obtain ⟨k₁, u₁, hopen, hpayload⟩ := andThen_eq_going h₂
  rw [← emitAll_singleton] at hopen hclose
  obtain ⟨rfl, hk, rfl, -⟩ := emitAll_going (Nat.zero_le _) hopen
  obtain ⟨P, hP, hbody, hseen⟩ := emitPayload_going hk hpayload
  refine ⟨P, hP, ?_, fun j hj => ?_⟩
  · rw [frame_eq, emitAll_append, hopen]
    show emitAll o c (frameBody s.params.markers P ++ [s.params.markers.END]) _ _ = _
    rw [emitAll_append]
    exact (congrArg (Emission.andThen · _) hbody).trans hclose
  · rw [← List.singleton_append, writeAll_append]
    simpa using hseen j hj

/-- COMPLETE is the answer of an ENC that went on to its end (R111). -/
theorem emitFrame_of_answers_complete {p n o c : Word} {r : Result}
    (ha : answers (.enc (.present p) n (.present o) (.value c)) s r t)
    (hr : r.outcome = .COMPLETE) :
    ∃ k u, emitFrame p.toNat n.toNat o.toNat c.toNat s = .going k u ∧ k ≤ c.toNat ∧
      r = { outcome := .COMPLETE, length := BitVec.ofNat 32 k } ∧ t = u.respond r := by
  obtain ⟨rfl, -⟩ | ⟨_, _, _, _, hi, -⟩ | ⟨_, _, hi, -⟩ | ⟨_, _, _, _, hi, -⟩ |
    ⟨_, _, _, _, _, hi, -⟩ | ⟨p', n', o', c', u, hi, hres, -, ht⟩ := answers_cases ha
  · cases hr
  · cases hi
  · cases hi
  · cases hi
  · cases hi
  · cases hi
    obtain ⟨k, v, e, hk, -, e'⟩ | ⟨v, -, -, e'⟩ | ⟨a, v, -, -, e'⟩ :=
      emitFrame_cases p.toNat n.toNat o.toNat c.toNat s <;> rw [e'] at hres <;> cases hres
    · exact ⟨k, _, e, hk, rfl, ht⟩
    · cases hr

/-- Settles O58: the bytes ENC read are, as `read_seenByte` says, the frame's or the caller's. -/
theorem encSeesItsOwnEarlierWrites : Obligations.EncSeesItsOwnEarlierWrites := by
  intro s t p n o c r hinv ha hr
  have hm := hinv.2.1
  obtain ⟨k, u, hgoing, hk, rfl, rfl⟩ := emitFrame_of_answers_complete ha hr
  obtain ⟨P, hP, hall, hseen⟩ := emitFrame_going hgoing
  obtain ⟨hlen, -, rfl, hwrite⟩ := emitAll_going (Nat.zero_le _) hall
  rw [Nat.zero_add] at hlen
  subst hlen
  have hw : s.canWrite o.toNat (frame s.params.markers P).length := hwrite
  have hin := canWrite_inside hw o.isLt
  have hcount : (BitVec.ofNat 32 (frame s.params.markers P).length).toNat =
      (frame s.params.markers P).length := Nat.mod_eq_of_lt (hk.trans_lt c.isLt)
  rw [hcount]
  refine ⟨P, hP, rfl, bytes_writeAll hm hin, fun x hx => read_writeAll_other hm hin hx,
    fun i hi => ?_⟩
  rw [hseen i hi, read_seenByte hm fun j hj => hw j ?_]
  · rfl
  · rw [frame_eq_append _ P i]
    simp
    omega

/-! ### An ENC that faults -/

theorem andThen_assoc (e : Emission) (f g : Nat → State → Emission) :
    (e.andThen f).andThen g = e.andThen (fun k u => (f k u).andThen g) := by
  cases e <;> rfl

theorem emitPayload_unreadable (hal : u.allows (p + i) .R = false) :
    emitPayload p o c (n + 1) i k u = .memFault (p + i) u := by
  simp only [emitPayload, memRead_refused hal]

/-- A payload byte that may not be read, reached with every byte before it read and written, ends
ENC there (R40, R116). -/
theorem emitFrame_unreadable (hm : s.mem.wf) (hi : i < n) (hlen : P.length = n)
    (hseen : ∀ j < n, P[j]? = some (seenByte s P p o j))
    (hal : s.allows (p + i) .R = false)
    (hc : 1 + (frameBody s.params.markers (P.take i)).length ≤ c) (hr : s.canRead p i)
    (hw : s.canWrite o (1 + (frameBody s.params.markers (P.take i)).length)) :
    emitFrame p n o c s = .memFault (p + i)
      { s with
        mem := s.mem.writeAll o
          (s.params.markers.END :: frameBody s.params.markers (P.take i)) } := by
  have htake : (P.take i).length = i := by simp; omega
  have hstart := emitPayload_opened_eq (u := s) (p := p) (o := o) (c := c) (P := P.take i)
    fun j hj _ hw' => by
      rw [htake] at hj
      rw [List.take_take, Nat.min_eq_left hj.le] at hw' ⊢
      rw [List.getElem?_take_of_lt hj, hseen j (by omega), read_seenByte hm hw']
      exact ⟨hr j hj, rfl⟩
  rw [htake, emitAll_of_writable (fun j hj => hw j (by simp at hj; omega)),
    if_pos (by simp; omega)] at hstart
  obtain ⟨d, rfl⟩ : ∃ d, n = i + (d + 1) := ⟨n - i - 1, by omega⟩
  have hsplit : emitPayload p o c (i + (d + 1)) 0 = fun k u =>
      (emitPayload p o c i 0 k u).andThen (emitPayload p o c (d + 1) i) := by
    funext k u
    rw [emitPayload_append, Nat.zero_add]
  rw [emitFrame, hsplit, ← andThen_assoc, hstart]
  have hal' : ∀ m : Memory, State.allows { s with mem := m } (p + i) .R = false := fun _ => hal
  exact congrArg (Emission.andThen · (emit o c s.params.markers.END))
    (emitPayload_unreadable (hal' _))

/-- Settles O60: up to the refused byte ENC emits the frame of the payload it reads. -/
theorem encFaultsOnTheFirstRefusedByte : Obligations.EncFaultsOnTheFirstRefusedByte := by
  intro s P p n o c hinv hP hseen
  have hm := hinv.2.1
  refine ⟨fun i hi hal hc hr hw => ?_, fun q hq hal hc hw hr => ?_⟩
  · have hlen : (s.params.markers.END :: frameBody s.params.markers (P.take i)).length =
        1 + (frameBody s.params.markers (P.take i)).length := by
      rw [List.length_cons, Nat.add_comm]
    have hin := canWrite_inside hw o.isLt
    rw [← hlen] at hin
    refine ⟨_, ?_, ?_, fun x hx => read_writeAll_other hm hin (by rwa [hlen])⟩
    · rw [exec_enc, emitFrame_unreadable hm hi hP hseen hal hc hr hw]
      rfl
    · have := bytes_writeAll hm hin
      rwa [hlen] at this
  · have hlen : ((frame s.params.markers P).take q).length = q := by simp; omega
    have hin := canWrite_inside hw o.isLt
    rw [← hlen] at hin
    have hf : emitFrame p.toNat n.toNat o.toNat c.toNat s =
        emitAll o.toNat c.toNat (frame s.params.markers P) 0 s := by
      rw [← hP] at hseen hr ⊢
      refine emitFrame_eq_of_seenByte hm hseen fun i hi _ hw' => hr i hi ?_
      by_contra hlt
      simp [hw' q (by omega)] at hal
    have hfault := emitAll_fault (u := s) (o := o.toNat) (cap := c.toNat) (k := 0) hq (by omega)
      (fun j hj => by rw [Nat.add_zero]; exact hw j hj) (by rw [Nat.add_zero]; exact hal)
    rw [Nat.add_zero] at hfault
    refine ⟨_, ?_, ?_, fun x hx => read_writeAll_other hm hin (by rwa [hlen])⟩
    · rw [exec_enc, hf, hfault]
      rfl
    · have := bytes_writeAll hm hin
      rwa [hlen] at this

end Sys2Proof.Machine
end

section
/-! ENC and then DECN: the payload comes back (40_decoder.md R102; 41_encoder.md R117). -/

namespace Sys2Proof.Machine

variable {s t u : State} {h : Handle} {k a n : Nat} {P : List Byte}

/-- DECN over a frame that stands in memory delivers its payload and consumes all of it, when the
session is ready for a frame and its stores do not reach the input (R102). -/
theorem consume_frame (hd : s.params.markers.distinct = true) (hm : s.mem.wf) (hk : k < s.nsess)
    (hs : (s.session k).state = .IDLE ∨ ((s.session k).state = .ACTIVE ∧ (s.session k).widx = 0))
    (hw : s.outputWritable k) (hP : P ≠ []) (hfit : P.length ≤ (s.session k).cap.toNat)
    (hr : s.canRead a n) (hap : apart a n (s.session k).out_base.toNat (s.session k).cap.toNat)
    (hframe : s.mem.bytes a n = frame s.params.markers P) :
    consume k a n 0 s = .done
      { outcome := .COMPLETE, length := BitVec.ofNat 32 P.length, consumed := BitVec.ofNat 32 n }
      (s.afterFrame k P) := by
  have hlen : (frame s.params.markers P).length = n := by rw [← hframe, length_bytes]
  obtain ⟨r, v, hloop⟩ := consume_done_of_real (a := a) (n := n) (i := 0) hk
    (fun j _ hj => hr j (by omega)) hw
  obtain ⟨j, hj, hcount, es, hrun, hcont, hstop⟩ := consume_run hk hm
    (fun j _ hj q hq => hap j (by omega) q hq) 0 hloop
  have hdv := run_decodes hk hrun
  obtain ⟨es', v', hrest⟩ := run_done_of_writable (s.mem.bytes (a + j) (n - j)) (0 + j)
    (by rw [hdv.nsess]; exact hk) (hdv.outputWritable hw)
  have hall := run_append hrun (by rwa [length_bytes])
  rw [Nat.add_zero, ← bytes_append, Nat.add_sub_cancel' hj, hframe, run_frame hd hk hs hw hP hfit,
    Attempt.done.injEq] at hall
  obtain ⟨hevents, hstate⟩ := hall
  by_cases ho : r.outcome = .CONTINUE
  · obtain ⟨rfl, rfl⟩ := hcont ho
    rw [Nat.sub_self] at hrest
    cases hrest
    cases hevents
  · obtain ⟨hpos, rfl⟩ := hstop ho
    rw [List.singleton_append, List.cons.injEq, Event.mk.injEq] at hevents
    obtain ⟨⟨hindex, hout, hlength⟩, rfl⟩ := hevents
    rw [hlen] at hindex
    obtain rfl : j = n := by omega
    rw [Nat.sub_self] at hrest
    cases hrest
    obtain rfl | ⟨_, _, o, len, -, rfl⟩ := consume_result hloop
    · exact absurd rfl ho
    · simp only at hcount hout hlength
      rw [hloop, hstate, hcount, hout, hlength, Nat.zero_add]

/-- So the command does, with the payload in the session's buffer and its length latched. -/
theorem exists_answers_decn_frame {o n len : Word} (hd : s.params.markers.distinct = true)
    (hm : s.mem.wf) (hb : s.bindsSession h k)
    (hs : (s.session k).state = .IDLE ∨ ((s.session k).state = .ACTIVE ∧ (s.session k).widx = 0))
    (hw : s.outputWritable k) (hP : P ≠ []) (hlenP : P.length = n.toNat)
    (hfit : n.toNat ≤ (s.session k).cap.toNat) (hr : s.canRead o.toNat len.toNat)
    (hap : apart o.toNat len.toNat (s.session k).out_base.toNat (s.session k).cap.toNat)
    (hframe : s.mem.bytes o.toNat len.toNat = frame s.params.markers P) :
    ∃ u, answers (.decn h (.present o) len) s
        { outcome := .COMPLETE, length := n, consumed := len } u ∧
      u.mem.bytes (s.session k).out_base.toNat n.toNat = P ∧
      u.session k = { s.session k with state := .ACTIVE, widx := 0, frame_len := n } := by
  have hk := validSession_lt hb.1
  rw [← hlenP] at hfit
  have hn : BitVec.ofNat 32 P.length = n := by
    rw [hlenP, BitVec.ofNat_toNat, BitVec.setWidth_eq]
  have hloop := consume_frame hd hm hk hs hw hP hfit hr hap hframe
  rw [hn, BitVec.ofNat_toNat, BitVec.setWidth_eq] at hloop
  refine ⟨_, (answers_decn hb).2 ⟨_, hloop, rfl⟩, ?_, ?_⟩
  · rw [← hlenP]
    exact afterFrame_bytes hm hw hfit
  · rw [respond_session, afterFrame_session hk, hn]

/-- Settles O44: ENC leaves the frame where DECN then reads it, and the session as it was. -/
theorem decodingInvertsEncodingOfPayloads : Obligations.DecodingInvertsEncodingOfPayloads := by
  intro s h k P p n o c len hinv hb hP hlenP hbytes hreq hc hfit hs hr hwo hro hw hap hap'
  have hm := hinv.2.1
  rw [requiredLength_eq] at hreq
  have hmin : min (frame s.params.markers P).length c.toNat = len.toNat := by omega
  have hexec := exec_enc_of_emitAll (emitFrame_of_apart hm hlenP hbytes (fun i hi _ => hr i hi)
    (by rwa [hmin])) (by rwa [hmin])
  rw [if_pos (by omega), hreq, BitVec.ofNat_toNat, BitVec.setWidth_eq] at hexec
  have hin := canWrite_inside hwo o.isLt
  rw [← hreq] at hin
  have hframe := bytes_writeAll hm hin
  rw [hreq] at hframe
  obtain ⟨u, hdecn, hbuffer, hsession⟩ := exists_answers_decn_frame
    (s := State.respond { s with mem := s.mem.writeAll o.toNat (frame s.params.markers P) }
      { outcome := .COMPLETE, length := len })
    (distinct_of_accepted hinv.1) (writeAll_wf hm hin) hb hs hw hP hlenP hfit hro hap' hframe
  exact ⟨_, u, ⟨hexec, rfl⟩, hdecn, hbuffer, hsession⟩

end Sys2Proof.Machine
end
